-- ==== Sys2Proof/Word.lean ====
section
/-! DEFINITION. The one word of the machine: every register, memory cell, address and operand is 8 bits wide (R4, R5, R14, R15). -/

namespace Sys2Proof

/-- An 8-bit unsigned value, bit 7 the most significant (R6, R7). Its `+` and `-` are modulo 256. -/
abbrev Byte := BitVec 8

end Sys2Proof
end

