-- ==== Sys2Proof/Syntax.lean ====
section
/-! DEFINITION. The twelve instructions, one constructor per row of the opcode table (R1, R56, R63). -/

namespace Sys2Proof

/-- An instruction with the operand bytes it uses, as they stand in memory (R50, R53).
`a` and `b` are register-index operands and `imm` the immediate of LDI. A register-index operand is the whole byte,
which may name no register: the instruction then raises InvalidRegister when it executes (R54). -/
inductive Instr where
  /-- Halt (R100). -/
  | hlt
  /-- Return: pop into `PC` (R123). -/
  | ret
  /-- Push a register (R111). -/
  | push (a : Byte)
  /-- Pop into a register (R114). -/
  | pop (a : Byte)
  /-- Emit a register to the output stream (R102). -/
  | prn (a : Byte)
  /-- Push the return address and jump to the address in a register (R120). -/
  | call (a : Byte)
  /-- Jump to the address in a register (R124). -/
  | jmp (a : Byte)
  /-- Load an immediate (R101). -/
  | ldi (a imm : Byte)
  /-- Add (R91). -/
  | add (a b : Byte)
  /-- Subtract (R92). -/
  | sub (a b : Byte)
  /-- Multiply (R93). -/
  | mul (a b : Byte)
  /-- Divide (R94). -/
  | div (a b : Byte)
  deriving DecidableEq, Repr

end Sys2Proof
end

