-- ==== Sys2Proof/WellFormed.lean ====
section
/-! DEFINITION. Which instructions name registers that exist (R53, R54). An instruction that is not well formed is still decoded and
executed: it raises InvalidRegister (R138). -/

namespace Sys2Proof

/-- The operand bytes an instruction uses as register indices, in the order in which they are checked (R53, R142). -/
def Instr.registerOperands : Instr → List Byte
  | .hlt => []
  | .ret => []
  | .push a => [a]
  | .pop a => [a]
  | .prn a => [a]
  | .call a => [a]
  | .jmp a => [a]
  | .ldi a _ => [a]
  | .add a b => [a, b]
  | .sub a b => [a, b]
  | .mul a b => [a, b]
  | .div a b => [a, b]

/-- The first register-index operand that names no register, if there is one (R54, R142). -/
def Instr.firstBadOperand (i : Instr) : Option Byte :=
  i.registerOperands.find? fun x => decide (8 ≤ x.toNat)

/-- Every register-index operand is in 0..7 (R54). -/
def Instr.wellFormed (i : Instr) : Bool :=
  i.registerOperands.all fun x => decide (x.toNat < 8)

end Sys2Proof
end

