-- ==== Sys2Proof/Decode.lean ====
section
/-! DEFINITION. The instruction decoder and the dispatch on the opcode byte (R50 to R60, R73 to R75), the encoder, and the
instruction of a word numbered as the opcode table numbers it. -/

namespace Sys2Proof

/-! ## The opcode bytes (R56)

LDI, PRN and HLT are the source's. The other nine rest on D5 and D6. UNVERIFIED; unsafe (log 3). -/

def opHlt : Byte := 0b00000001
def opRet : Byte := 0b00010001
def opPush : Byte := 0b01000101
def opPop : Byte := 0b01000110
def opPrn : Byte := 0b01000111
def opCall : Byte := 0b01010000
def opJmp : Byte := 0b01010100
def opLdi : Byte := 0b10000010
def opAdd : Byte := 0b10100000
def opSub : Byte := 0b10100001
def opMul : Byte := 0b10100010
def opDiv : Byte := 0b10100011

/-! ## The decoder (R52) -/

/-- The decoder's three outputs (R52). -/
structure DecoderOut where
  operandCount : Nat
  isAluOp : Bool
  identity : Byte
  deriving DecidableEq, Repr

/-- `operand_count`, bits 7:6 of the opcode byte: 0 to 3 (R51, R52, D22). -/
def operandCount (ir : Byte) : Nat := (ir.extractLsb' 6 2).toNat

/-- `is_alu_op`, bit 5 of the opcode byte (R51, R52). -/
def isAluOp (ir : Byte) : Bool := ir.getLsbD 5

/-- The combinational decoder: total, and it never raises a fault (R52, R73). -/
def decoder (ir : Byte) : DecoderOut :=
  { operandCount := operandCount ir, isAluOp := isAluOp ir, identity := ir }

/-! ## Dispatch on the decoder's outputs (R58, R74, R75) -/

/-- Why an opcode byte is no instruction, with the byte (R58). -/
inductive Reject where
  /-- Bit 5 is 1 and the byte is none of 0xA0 to 0xA3 (R95, R140). -/
  | unsupportedAluOperation (ir : Byte)
  /-- Bit 5 is 0 and no handler has the byte (R141). -/
  | unknownOpcode (ir : Byte)
  deriving DecidableEq, Repr

/-- The ALU path: the whole byte is matched, not its low three bits (R57, R74, D6). -/
def selectAlu (identity opa opb : Byte) : Except Reject Instr :=
  if identity = opAdd then .ok (.add opa opb)
  else if identity = opSub then .ok (.sub opa opb)
  else if identity = opMul then .ok (.mul opa opb)
  else if identity = opDiv then .ok (.div opa opb)
  else .error (.unsupportedAluOperation identity)

/-- The handler path: the whole byte selects one of eight handlers (R75). -/
def selectHandler (identity opa opb : Byte) : Except Reject Instr :=
  if identity = opHlt then .ok .hlt
  else if identity = opRet then .ok .ret
  else if identity = opPush then .ok (.push opa)
  else if identity = opPop then .ok (.pop opa)
  else if identity = opPrn then .ok (.prn opa)
  else if identity = opCall then .ok (.call opa)
  else if identity = opJmp then .ok (.jmp opa)
  else if identity = opLdi then .ok (.ldi opa opb)
  else .error (.unknownOpcode identity)

/-- The instruction in the three fetched bytes, total on any bytes: bit 5 alone chooses the path (R58, R73 to R75, D7, C2).
Operand candidates that the instruction does not use are dropped (R46, R50). -/
def decode (ir opa opb : Byte) : Except Reject Instr :=
  let d := decoder ir
  if d.isAluOp then selectAlu d.identity opa opb else selectHandler d.identity opa opb

/-! ## The encoder (R50, R56) -/

/-- The opcode byte of an instruction (R56). -/
def Instr.opcode : Instr → Byte
  | .hlt => opHlt
  | .ret => opRet
  | .push _ => opPush
  | .pop _ => opPop
  | .prn _ => opPrn
  | .call _ => opCall
  | .jmp _ => opJmp
  | .ldi _ _ => opLdi
  | .add _ _ => opAdd
  | .sub _ _ => opSub
  | .mul _ _ => opMul
  | .div _ _ => opDiv

/-- The operand bytes of an instruction, in memory order (R50, R53). -/
def Instr.operands : Instr → List Byte
  | .hlt => []
  | .ret => []
  | .push a => [a]
  | .pop a => [a]
  | .prn a => [a]
  | .call a => [a]
  | .jmp a => [a]
  | .ldi a imm => [a, imm]
  | .add a b => [a, b]
  | .sub a b => [a, b]
  | .mul a b => [a, b]
  | .div a b => [a, b]

/-- The bytes of an instruction, the opcode at the lowest address (R34, R50). -/
def encode (i : Instr) : List Byte := i.opcode :: i.operands

/-! ## Words numbered as the opcode table numbers them -/

/-- Byte `k` of an instruction whose bits are the low `nbits` bits of `w`, the first byte in bits 7..0; bits above are 0. -/
def tableByte (nbits w k : Nat) : Byte := BitVec.ofNat 8 (w % 2 ^ nbits / 2 ^ (8 * k))

/-- The instruction the decoder reads from such a word; `none` where it rejects. -/
def decodeTableWord (nbits w : Nat) : Option Instr :=
  (decode (tableByte nbits w 0) (tableByte nbits w 1) (tableByte nbits w 2)).toOption

end Sys2Proof
end

