-- ==== Sys2Proof/Config.lean ====
section
/-! DEFINITION. What is fixed for a run and is not state: the reset values of R4 and R5, and the parameter `EXIT_FAULT` (R28, R152).
The other parameter, `INIT_MEM`, is the argument of `Machine.State.resetWith` (R162). -/

namespace Sys2Proof.Config

/-- `SP_RESET`, the stack pointer at reset (R4, R27). -/
def spReset : Byte := 0xF4

/-- `PC_RESET`, the program counter at reset (R4, R27). -/
def pcReset : Byte := 0x00

/-- The value of R0 to R6 at reset (R5, R27, D11). UNVERIFIED: the spec states it and marks it general knowledge; unsafe (log 2). -/
def regReset : Byte := 0x00

/-- `EXIT_FAULT`, the host's exit status for a fatal error: any integer but 0 and 2 (R5, R152, D14, part 3 of
93_implementation_defined.md). -/
structure ExitFault where
  value : Int
  nonzero : value ≠ 0
  not_two : value ≠ 2
  deriving DecidableEq, Repr

/-- The default of `EXIT_FAULT`, the source's own example (R5, R152). -/
def ExitFault.default : ExitFault := ⟨1, by decide, by decide⟩

end Sys2Proof.Config
end

