-- ==== Sys2Proof/Machine/State.lean ====
section
/-! DEFINITION. The architectural state, exactly the tuple of R29, its reset values (R27), and the two reason types of a step. -/

namespace Sys2Proof.Machine

/-- `STATE`, the machine state (R18). -/
inductive RunState where
  /-- The core takes its next step (R70, R169). -/
  | running
  /-- Ended by HLT; terminal but for reset (R79, R100). -/
  | halted
  /-- Ended by a fatal error; terminal but for reset (R79, R132). -/
  | faulted
  deriving DecidableEq, Repr

/-- `FAULT_CAUSE`, an enumeration whose codes are a port encoding only (R19, R133). -/
inductive FaultCause where
  /-- No fault: `STATE` is Running or Halted. -/
  | none
  /-- A memory access outside 0..255: in the source's table, raised by no instruction of this hardware (R33, R137). -/
  | outOfBoundsAddress
  /-- An operand byte of 8 or more used as a register index (R138). -/
  | invalidRegister
  /-- DIV with a divisor of 0 (R139). -/
  | divisionByZero
  /-- An opcode with bit 5 = 1 that is no ALU instruction (R140). -/
  | unsupportedAluOperation
  /-- An opcode with bit 5 = 0 that no handler has (R141). -/
  | unknownOpcode
  deriving DecidableEq, Repr

/-- Memory as (address, byte) pairs in the canonical form of `Memory.wf`: addresses strictly rising and below 256, and no
entry equal to what an unlisted address reads as. Read and written only through `Machine.Memory`'s operations. -/
abbrev Memory := List Host.Cell

/-- The architectural state (R29). The latches IR, OPA, OPB, MAR and MDR are not part of it (R23, R25; log 7). -/
structure State where
  /-- `R[0]` to `R[7]`, each 8 bits; `R[7]` is `SP` (R10, R11, R14). -/
  regs : Vector Byte 8
  /-- `PC`, the address of the next opcode byte (R15). -/
  pc : Byte
  /-- `STATE` (R18). -/
  runState : RunState
  /-- `FAULT_CAUSE` (R19). -/
  faultCause : FaultCause
  /-- `FAULT_INFO` (R19). -/
  faultInfo : Byte
  /-- `MEM`, one array for program, data and stack (R21). -/
  mem : Memory
  /-- `OUT`, the bytes emitted by PRN, oldest first (R22; log 9). -/
  out : List Byte
  deriving DecidableEq, Repr

/-- Reasons for which a step would stop without a next state. There is none: every fatal error of the machine has an entry
that the spec describes, and is the NEXT state whose `runState` is `.faulted` (R78, R132; log 6). Raised by nobody; safe. -/
inductive Fault where
  deriving DecidableEq, Repr

/-- Reasons for which an instruction would have no meaning in the model. -/
inductive Refusal where
  /-- An instruction not yet modelled, by its mnemonic. Raised by nobody: every instruction has its meaning. Safe. -/
  | notModelled (mnemonic : String)
  deriving DecidableEq, Repr

/-- What an instruction or a step answers. -/
abbrev Result := Host.Outcome State Fault Refusal

/-- The machine when reset is released and memory holds `mem` (R27, R160, R161). -/
def State.afterReset (mem : Memory) : State :=
  { regs := #v[Config.regReset, Config.regReset, Config.regReset, Config.regReset,
               Config.regReset, Config.regReset, Config.regReset, Config.spReset]
    pc := Config.pcReset
    runState := .running
    faultCause := .none
    faultInfo := 0x00
    mem := mem
    out := [] }

/-- The machine right after reset, with nothing listed in memory. The spec leaves the contents of memory to the parameter
`INIT_MEM` (R27, R162); this state takes it to be 0x00 in every cell. DESIGN CHOICE; unsafe (log 1). -/
def State.reset : State := State.afterReset []

end Sys2Proof.Machine
end

