-- ==== Sys2Proof/Machine/Memory.lean ====
section
/-! DEFINITION. The 256 cells of memory and the two primitives `MemRead` and `MemWrite` (R30 to R33), over the canonical form. -/

namespace Sys2Proof.Machine

/-- What an address that is not listed reads as. DESIGN CHOICE: the spec leaves memory at reset to `INIT_MEM` (R162); its test
vectors take 0x00 for the cells they do not list. Unsafe for a claim about a run from `State.reset` (log 1). -/
def Memory.unlisted (_addr : Nat) : Byte := 0x00

/-- The byte at a cell number. -/
def Memory.lookup (addr : Nat) : Memory → Byte
  | [] => Memory.unlisted addr
  | c :: m => if c.1 = addr then c.2 else Memory.lookup addr m

/-- `MemRead(a, 1)` (R31). An address is 8 bits, so it is always in 0..255 (R33). -/
def Memory.read (m : Memory) (a : Byte) : Byte := Memory.lookup a.toNat m

/-- `m` without an entry for a cell number. -/
def Memory.erase (addr : Nat) : Memory → Memory
  | [] => []
  | c :: m => if c.1 = addr then Memory.erase addr m else c :: Memory.erase addr m

/-- `m` with an entry put before the first one of a higher cell number. -/
def Memory.insert (addr : Nat) (v : Byte) : Memory → Memory
  | [] => [(addr, v)]
  | c :: m => if addr < c.1 then (addr, v) :: c :: m else c :: Memory.insert addr v m

/-- `MemWrite(a, 1, v)` (R32). Writing what an unlisted address reads as removes the entry. -/
def Memory.write (m : Memory) (a : Byte) (v : Byte) : Memory :=
  if v = Memory.unlisted a.toNat then Memory.erase a.toNat m
  else Memory.insert a.toNat v (Memory.erase a.toNat m)

/-- The canonical form from cell number `lo` upward. -/
def Memory.wfFrom (lo : Nat) : Memory → Bool
  | [] => true
  | c :: m =>
    decide (lo ≤ c.1) && decide (c.1 < 256) && decide (c.2 ≠ Memory.unlisted c.1) && Memory.wfFrom (c.1 + 1) m

/-- The canonical form: addresses strictly rising and below 256, no entry equal to what an unlisted address reads as. -/
def Memory.wf (m : Memory) : Bool := Memory.wfFrom 0 m

/-- `m` with cells 0 to `n - 1` set to `image`. -/
def Memory.fill (image : Byte → Byte) (m : Memory) : Nat → Memory
  | 0 => m
  | n + 1 => Memory.write (Memory.fill image m n) (BitVec.ofNat 8 n) (image (BitVec.ofNat 8 n))

/-- The memory whose cells hold `image` (R28, R162). -/
def Memory.ofImage (image : Byte → Byte) : Memory := Memory.fill image [] 256

end Sys2Proof.Machine
end

