-- ==== Sys2Proof/Machine/Ops.lean ====
section
/-! DEFINITION. The named operations over the state: registers, the stack pointer, the program counter, memory, output, fault entry and
the fetch. There is no return from a fault (R136): `State.afterReset` is the only way out of Faulted. -/

namespace Sys2Proof.Machine

/-! ## The register file (R10 to R14) -/

/-- `R[i]`. -/
def State.reg (s : State) (i : Fin 8) : Byte := s.regs.get i

/-- `R[i] <- v`. -/
def State.setReg (s : State) (i : Fin 8) (v : Byte) : State := { s with regs := s.regs.set i.val v i.isLt }

/-- `SP_INDEX` (R4, R11). -/
def spIndex : Fin 8 := 7

/-- `SP`, the alias of `R[7]` (R8, R11). -/
def State.sp (s : State) : Byte := s.reg spIndex

/-- `SP <- SP - 1` modulo 256, with no bounds check (R110, R113, D3). -/
def State.decSp (s : State) : State := s.setReg spIndex (s.sp - 1)

/-- `SP <- SP + 1` modulo 256, with no bounds check (R110, R113, D3). -/
def State.incSp (s : State) : State := s.setReg spIndex (s.sp + 1)

/-! ## The program counter (R15 to R17, R76) -/

/-- `PC <- t`. -/
def State.setPc (s : State) (t : Byte) : State := { s with pc := t }

/-- The generic advance, `PC <- PC + 1 + operand_count` modulo 256, where `operand_count` is bits 7:6 of the opcode (R76, D4). -/
def State.advancePast (s : State) (opcode : Byte) : State :=
  s.setPc (s.pc + 1 + BitVec.ofNat 8 (operandCount opcode))

/-- The address after a CALL and its operand, `PC + 2` modulo 256 (R121, D4). -/
def State.returnAddress (s : State) : Byte := s.pc + 2

/-! ## Memory and output -/

/-- The byte at an address (R31). -/
def State.load (s : State) (a : Byte) : Byte := Memory.read s.mem a

/-- One byte stored at an address (R32). -/
def State.store (s : State) (a v : Byte) : State := { s with mem := Memory.write s.mem a v }

/-- `OUT <- OUT ++ [v]` (R8, R22). -/
def State.emit (s : State) (v : Byte) : State := { s with out := s.out ++ [v] }

/-! ## The end of a run -/

/-- `STATE <- Halted` (R100). -/
def State.halt (s : State) : State := { s with runState := .halted }

/-- Fault entry, `raise <Cause>(info)`: `STATE`, `FAULT_CAUSE` and `FAULT_INFO` change and nothing else does (R132, R135). -/
def State.raise (s : State) (cause : FaultCause) (info : Byte) : State :=
  { s with runState := .faulted, faultCause := cause, faultInfo := info }

/-- The fault of a rejected opcode byte, with the byte as information (R134, R140, R141). -/
def State.raiseReject (s : State) : Reject → State
  | .unsupportedAluOperation ir => s.raise .unsupportedAluOperation ir
  | .unknownOpcode ir => s.raise .unknownOpcode ir

/-! ## The fetch (R38, R71, R72) -/

/-- The three latches that the fetch of an instruction fills (R23). -/
structure Fetched where
  ir : Byte
  opa : Byte
  opb : Byte
  deriving DecidableEq, Repr

/-- The opcode and the two operand candidates, read at `PC`, `PC + 1` and `PC + 2` modulo 256 whether used or not (R17, R71, R72). -/
def State.fetch (s : State) : Fetched :=
  { ir := s.load s.pc, opa := s.load (s.pc + 1), opb := s.load (s.pc + 2) }

/-- The instruction in the fetched bytes. -/
def Fetched.decode (f : Fetched) : Except Reject Instr := Sys2Proof.decode f.ir f.opa f.opb

end Sys2Proof.Machine
end

