-- ==== Sys2Proof/Machine/Operands.lean ====
section
/-! DEFINITION. The two kinds of operand byte: a register index, checked whole, and an immediate (R53 to R55). -/

namespace Sys2Proof.Machine

/-- The register a byte names: the whole byte is compared with 8, never masked to 3 bits (R12, R54, D16). -/
def regIndex? (x : Byte) : Option (Fin 8) :=
  if h : x.toNat < 8 then some ⟨x.toNat, h⟩ else none

/-- Goes on with the register that a register-index operand names; where it names none, raises InvalidRegister with the byte
and does nothing else (R54, R135, R138). -/
def withRegister (x : Byte) (s : State) (act : Fin 8 → Result) : Result :=
  match regIndex? x with
  | some i => act i
  | none => .next (s.raise .invalidRegister x)

/-- The immediate of LDI, the byte as it stands: every value is legal, and nothing is extended, scaled or checked (R55). -/
def immediate (x : Byte) : Byte := x

end Sys2Proof.Machine
end

