-- ==== Sys2Proof/Machine/Flags.lean ====
section
/-! DEFINITION. The machine has no flags, condition codes or predicate registers, so no instruction computes one (R20). What stands here is
what becomes of an exact result: its low 8 bits are kept, and carry, borrow and high part are discarded (R14, R98, D1). -/

namespace Sys2Proof.Machine

/-- An exact integer result reduced modulo 256, in 0..255 for a negative one too (R8, R14). -/
def narrow (exact : Int) : Byte := BitVec.ofInt 8 exact

end Sys2Proof.Machine
end

