-- ==== Sys2Proof/Machine/Alu.lean ====
section
/-! DEFINITION. The 8-bit ALU and ADD, SUB, MUL, DIV (R90 to R98). -/

namespace Sys2Proof.Machine

/-- The operations of the ALU (R90). -/
inductive AluOp where
  | add
  | sub
  | mul
  | div
  deriving DecidableEq, Repr

/-- The exact result on the two register values; none where DIV has a divisor of 0 (R91 to R94, R98, D2). -/
def aluExact (op : AluOp) (va vb : Byte) : Option Int :=
  match op with
  | .add => some ((va.toNat : Int) + (vb.toNat : Int))
  | .sub => some ((va.toNat : Int) - (vb.toNat : Int))
  | .mul => some ((va.toNat : Int) * (vb.toNat : Int))
  | .div => if vb.toNat = 0 then none else some ((va.toNat / vb.toNat : Nat) : Int)

/-- `evaluate`: a pure function of two values, with the exact result narrowed to a byte (R90, R98, D1). -/
def aluEvaluate (op : AluOp) (va vb : Byte) : Option Byte := (aluExact op va vb).map narrow

/-- The ALU path: both indices checked, `a` first; both values read before the write; the result written to `R[a]`
(R74, R90, R96, R142). -/
def execAlu (op : AluOp) (opcode a b : Byte) (s : State) : Result :=
  withRegister a s fun i =>
    withRegister b s fun j =>
      match aluEvaluate op (s.reg i) (s.reg j) with
      | some r => .next ((s.setReg i r).advancePast opcode)
      | none => .next (s.raise .divisionByZero 0x00)

/-- ADD Ra,Rb (R91). -/
def execAdd (a b : Byte) (s : State) : Result := execAlu .add opAdd a b s

/-- SUB Ra,Rb (R92). -/
def execSub (a b : Byte) (s : State) : Result := execAlu .sub opSub a b s

/-- MUL Ra,Rb (R93). -/
def execMul (a b : Byte) (s : State) : Result := execAlu .mul opMul a b s

/-- DIV Ra,Rb (R94). -/
def execDiv (a b : Byte) (s : State) : Result := execAlu .div opDiv a b s

end Sys2Proof.Machine
end

