-- ==== Sys2Proof/Machine/Stack.lean ====
section
/-! DEFINITION. PUSH and POP on the full-descending stack at `SP` (R110 to R116). With register 7 as the operand the literal order of the
steps decides (R112, R115, D17). UNVERIFIED; unsafe for those forms (log 5). -/

namespace Sys2Proof.Machine

/-- `SP <- SP - 1`, then the byte `value` gives, read after the decrement, stored at `SP` (R110). -/
def State.pushBy (s : State) (value : State → Byte) : State :=
  let s1 := s.decSp
  s1.store s1.sp (value s1)

/-- PUSH Ra: `R[a]` is read after the decrement (R111, R112). -/
def execPush (a : Byte) (s : State) : Result :=
  withRegister a s fun i => .next ((s.pushBy fun t => t.reg i).advancePast opPush)

/-- POP Ra: `R[7]` is read for the increment after `R[a]` is written (R114, R115). -/
def execPop (a : Byte) (s : State) : Result :=
  withRegister a s fun i => .next ((s.setReg i (s.load s.sp)).incSp.advancePast opPop)

end Sys2Proof.Machine
end

