-- ==== Sys2Proof/Machine/Control.lean ====
section
/-! DEFINITION. CALL, RET and JMP, which replace `PC` themselves (R77, R120 to R128). Any byte is a legal target (R125). -/

namespace Sys2Proof.Machine

/-- CALL Ra: the return address is pushed, then `R[a]`, read after the decrement, goes to `PC` (R120 to R122). -/
def execCall (a : Byte) (s : State) : Result :=
  withRegister a s fun i =>
    let s1 := s.pushBy State.returnAddress
    .next (s1.setPc (s1.reg i))

/-- RET: the byte at `SP` goes to `PC`, whoever pushed it (R123). -/
def execRet (s : State) : Result := .next ((s.setPc (s.load s.sp)).incSp)

/-- JMP Ra (R124). -/
def execJmp (a : Byte) (s : State) : Result := withRegister a s fun i => .next (s.setPc (s.reg i))

end Sys2Proof.Machine
end

