-- ==== Sys2Proof/Machine/HaltLoadPrint.lean ====
section
/-! DEFINITION. HLT, LDI and PRN (R100 to R102). -/

namespace Sys2Proof.Machine

/-- HLT: `PC` keeps the address of the HLT byte (R77, R100, D18; log 17). -/
def execHlt (s : State) : Result := .next s.halt

/-- LDI Ra,imm8 (R101). -/
def execLdi (a imm : Byte) (s : State) : Result :=
  withRegister a s fun i => .next ((s.setReg i (immediate imm)).advancePast opLdi)

/-- PRN Ra: the core hands over the byte; it cannot block (R102, D13). -/
def execPrn (a : Byte) (s : State) : Result :=
  withRegister a s fun i => .next ((s.emit (s.reg i)).advancePast opPrn)

end Sys2Proof.Machine
end

