-- ==== Sys2Proof/Machine/Step.lean ====
section
/-! DEFINITION. One step of the machine, fetch, decode and execute as one function on the state (R9, R70, R78), and the placing of an
instruction where the next step fetches it. -/

namespace Sys2Proof.Machine

/-- One step. In Halted and Faulted it changes nothing, fetches nothing and emits nothing (R79). In Running it executes the
instruction at `PC`, or takes the fault of a rejected opcode (R78). Reset is not an input of the step (log 10). -/
def step (s : State) : Host.Outcome State Fault Refusal :=
  match s.runState with
  | .halted => .next s
  | .faulted => .next s
  | .running =>
    match s.fetch.decode with
    | .ok i => exec i s
    | .error r => .next (s.raiseReject r)

/-- `s` with an instruction word stored where `step` fetches its next instruction: its three bytes at `PC`, `PC + 1` and
`PC + 2`, the bits above `nbits` zero, and `STATE` Running so that it is fetched. It stands for the Loader (R162; log 8). -/
def State.withFetchWord (s : State) (nbits w : Nat) : State :=
  let s1 := s.store s.pc (tableByte nbits w 0)
  let s2 := s1.store (s.pc + 1) (tableByte nbits w 1)
  let s3 := s2.store (s.pc + 2) (tableByte nbits w 2)
  { s3 with runState := .running }

end Sys2Proof.Machine
end

