-- ==== Sys2Proof/Machine/Boot.lean ====
section
/-! DEFINITION. Reset and boot: the event `rst`, the parameter `INIT_MEM`, and the image and listing format the Loader leaves (R62, R160 to R164). -/

namespace Sys2Proof.Machine

/-- The machine when reset is released and memory holds `INIT_MEM = image` (R27, R28, R162). -/
def State.resetWith (image : Byte → Byte) : State := State.afterReset (Memory.ofImage image)

/-- `rst` asserted: every register at its reset value, the run abandoned, memory kept (R160). -/
def State.assertReset (s : State) : State := State.afterReset s.mem

/-- `INIT_MEM` once the Loader has written a program from address 0 over `background` (R62, R162). Bytes past the 256th are
dropped: the spec does not say what the Loader does with them. DESIGN CHOICE; unsafe for longer programs only (log 12). -/
def imageOver (background : Byte → Byte) (program : List Byte) (a : Byte) : Byte :=
  program.getD a.toNat (background a)

/-- The boot sequence over memory that holds nothing else: reset held, the program loaded from address 0, reset released (R163).
The cells past the program read as `Memory.unlisted` (log 1). -/
def State.boot (program : List Byte) : State :=
  State.resetWith (imageOver (fun a => Memory.unlisted a.toNat) program)

/-! ## The listing format (R62) -/

/-- A binary digit. -/
def binaryDigit? (c : Char) : Option Nat :=
  if c = '0' then some 0 else if c = '1' then some 1 else none

/-- A number in base 2, leftmost digit first, going on from `acc` (R6). -/
def binaryNumeral? (acc : Nat) : List Char → Option Nat
  | [] => some acc
  | c :: cs => (binaryDigit? c).bind fun d => binaryNumeral? (2 * acc + d) cs

/-- White space around the digits of a line is not part of them. DESIGN CHOICE: the spec names none; unsafe for listings (log 16). -/
def trimBlanks (l : List Char) : List Char :=
  ((l.dropWhile Char.isWhitespace).reverse.dropWhile Char.isWhitespace).reverse

/-- What one line of a listing stands for. -/
inductive ListingLine where
  /-- A blank or comment-only line. -/
  | skipped
  /-- One instruction byte. -/
  | byte (v : Byte)
  /-- Neither: the format gives the line no meaning. -/
  | malformed
  deriving DecidableEq, Repr

/-- One line: exactly 8 binary digits and an optional comment from `#` on, or nothing but a comment (R62). -/
def listingLine (l : List Char) : ListingLine :=
  let digits := trimBlanks (l.takeWhile fun c => decide (c ≠ '#'))
  if digits = [] then .skipped
  else if digits.length = 8 then
    match binaryNumeral? 0 digits with
    | some n => .byte (BitVec.ofNat 8 n)
    | none => .malformed
  else .malformed

/-- The bytes of a listing, one a line; none where a line is malformed (R62). -/
def listingBytes? : List (List Char) → Option (List Byte)
  | [] => some []
  | l :: ls =>
    match listingLine l with
    | .skipped => listingBytes? ls
    | .byte v => (listingBytes? ls).map fun vs => v :: vs
    | .malformed => none

end Sys2Proof.Machine
end

