-- ==== Sys2Proof/Machine/Environment.lean ====
section
/-! DEFINITION. What the environment sees of the machine: the status codes, the trace port, the rendering of the output stream, the exit
status, and the listing notation (R61, R83, R85, R103, R133, R150, R152). None of it changes the state. -/

namespace Sys2Proof.Machine

/-! ## Status (R18, R83, R85, R133, R152) -/

/-- The `state` port (R18, R83). -/
def RunState.code : RunState → BitVec 2
  | .running => 0
  | .halted => 1
  | .faulted => 2

/-- The `fault_cause` port (R133). -/
def FaultCause.code : FaultCause → BitVec 3
  | .none => 0
  | .outOfBoundsAddress => 1
  | .invalidRegister => 2
  | .divisionByZero => 3
  | .unsupportedAluOperation => 4
  | .unknownOpcode => 5

/-- The run has ended (R85). -/
def State.ended (s : State) : Bool := decide (s.runState ≠ .running)

/-- The exit status the host derives from the end of a run; none while the run goes on (R152; log 13). -/
def exitStatus (exitFault : Config.ExitFault) (s : State) : Option Int :=
  match s.runState with
  | .running => none
  | .halted => some 0
  | .faulted => some exitFault.value

/-! ## The trace port (R150) -/

/-- The Tracer's view: `PC`, the three memory bytes at it, and the eight registers. -/
structure Trace where
  pc : Byte
  bytes : Fetched
  regs : Vector Byte 8
  deriving DecidableEq, Repr

/-- The read-only trace port, taken between instructions (R150, D20). -/
def trace (s : State) : Trace := { pc := s.pc, bytes := s.fetch, regs := s.regs }

/-! ## The output stream as text (R103) -/

/-- The decimal digits of a byte, most significant first, no leading zeros, `0` for zero (R103). -/
def decimalDigits (v : Byte) : List Nat :=
  let n := v.toNat
  if n < 10 then [n]
  else if n < 100 then [n / 10, n % 10]
  else [n / 100, n / 10 % 10, n % 10]

/-- A byte as its decimal numeral (R103). -/
def decimalNumeral (v : Byte) : List Char := (decimalDigits v).map fun d => Char.ofNat (48 + d)

/-- The numerals of the output stream, oldest first. What separates them is left out (R103, D13; log 9). -/
def renderOut (out : List Byte) : List (List Char) := out.map decimalNumeral

/-! ## The listing notation (R61) -/

/-- The name of the register a byte stands for in a listing: `R0` to `R7` (R61). For a byte of 8 or more, which names no register,
the notation has nothing: the model shows `R` and the decimal value, as in `R200`. DESIGN CHOICE; unsafe for such listings
(log 20). -/
def registerName (x : Byte) : List Char := 'R' :: decimalNumeral x

/-- The line of a listing that shows an instruction (R61, D19). R61 lets an immediate be decimal or hexadecimal: the model shows it
in decimal. DESIGN CHOICE (log 20). -/
def listing : Instr → List Char
  | .hlt => "HLT".toList
  | .ret => "RET".toList
  | .push a => "PUSH ".toList ++ registerName a
  | .pop a => "POP ".toList ++ registerName a
  | .prn a => "PRN ".toList ++ registerName a
  | .call a => "CALL ".toList ++ registerName a
  | .jmp a => "JMP ".toList ++ registerName a
  | .ldi a imm => "LDI ".toList ++ registerName a ++ ',' :: decimalNumeral imm
  | .add a b => "ADD ".toList ++ registerName a ++ ',' :: registerName b
  | .sub a b => "SUB ".toList ++ registerName a ++ ',' :: registerName b
  | .mul a b => "MUL ".toList ++ registerName a ++ ',' :: registerName b
  | .div a b => "DIV ".toList ++ registerName a ++ ',' :: registerName b

end Sys2Proof.Machine
end

