-- ==== Sys2Proof/Machine/Fsm.lean ====
section
/-! DEFINITION. The control FSM phase by phase, with the latches, the memory port, the Loader's access and reset (R38, R39, R81 to R84).
It adds no architectural behaviour to `step` (R81). A transition is one FSM state, not a number of clock edges (R84, R168; log 10). -/

namespace Sys2Proof.Machine

/-- The states of the control FSM (R81). -/
inductive Phase where
  | load
  | fetch0
  | fetch1
  | fetch2
  | decode
  | execute
  | halted
  | faulted
  deriving DecidableEq, Repr

/-- The core with the FSM's state and the latches of R23, whose contents at reset are unspecified: no reset value is given to
them here (R27; log 7, log 14). -/
structure Fsm where
  arch : State
  phase : Phase
  ir : Byte
  opa : Byte
  opb : Byte
  deriving DecidableEq, Repr

/-- One write of the Loader (R39). -/
structure LoaderWrite where
  addr : Byte
  data : Byte
  deriving DecidableEq, Repr

/-- What comes from outside: `rst`, and a write the Loader asks for (R39, R83). -/
structure FsmInputs where
  rst : Bool
  loader : Option LoaderWrite
  deriving DecidableEq, Repr

/-- The inputs of a run that nothing disturbs. -/
def FsmInputs.idle : FsmInputs := { rst := false, loader := none }

/-- One access on the core's memory port: `mem_addr`, `mem_we`, and `mem_wdata` of a write (R25, R83). -/
inductive MemAccess where
  | read (addr : Byte)
  | write (addr data : Byte)
  deriving DecidableEq, Repr

/-- The one data access of an instruction: a write at `SP - 1` for PUSH and CALL, a read at `SP` for POP and RET (R36, R38). -/
def dataAccess (i : Instr) (s : State) : Option MemAccess :=
  match i with
  | .hlt => none
  | .ret => some (.read s.sp)
  | .push a => (regIndex? a).map fun r => .write s.decSp.sp (s.decSp.reg r)
  | .pop a => (regIndex? a).map fun _ => .read s.sp
  | .prn _ => none
  | .call a => (regIndex? a).map fun _ => .write s.decSp.sp s.returnAddress
  | .jmp _ => none
  | .ldi _ _ => none
  | .add _ _ => none
  | .sub _ _ => none
  | .mul _ _ => none
  | .div _ _ => none

/-- The byte an instruction puts on `out_data` with `out_valid`: only PRN has one (R83, R102). -/
def emitted (i : Instr) (s : State) : Option Byte :=
  match i with
  | .hlt => none
  | .ret => none
  | .push _ => none
  | .pop _ => none
  | .prn a => (regIndex? a).map fun r => s.reg r
  | .call _ => none
  | .jmp _ => none
  | .ldi _ _ => none
  | .add _ _ => none
  | .sub _ _ => none
  | .mul _ _ => none
  | .div _ _ => none

/-- The FSM's state after an instruction, or of a machine at rest: `STATE` is its coarsening (R81). -/
def Phase.ofRunState : RunState → Phase
  | .running => .fetch0
  | .halted => .halted
  | .faulted => .faulted

/-- The `STATE` of which an FSM state is a refinement (R18, R81). DEDUCED for LOAD, where the registers are held at their
reset values and `STATE` is Running; safe (log 18). -/
def Phase.runState : Phase → RunState
  | .halted => .halted
  | .faulted => .faulted
  | .load => .running
  | .fetch0 => .running
  | .fetch1 => .running
  | .fetch2 => .running
  | .decode => .running
  | .execute => .running

/-- The instruction in the latches. -/
def Fsm.decoded (m : Fsm) : Except Reject Instr := Sys2Proof.decode m.ir m.opa m.opb

/-- The memory port by FSM state (R38, R82), whatever `rst` is. Whether a write shown here lands when `rst` is asserted on the same
transition is settled in `Fsm.holdReset` (log 19). Where the core makes no access there is none (log 15). -/
def Fsm.access (m : Fsm) : Option MemAccess :=
  match m.phase with
  | .fetch0 => some (.read m.arch.pc)
  | .fetch1 => some (.read (m.arch.pc + 1))
  | .fetch2 => some (.read (m.arch.pc + 2))
  | .execute => m.decoded.toOption.bind fun i => dataAccess i m.arch
  | .load => none
  | .decode => none
  | .halted => none
  | .faulted => none

/-- `mem_rdata`: the byte a read access brings (R31, R83). -/
def Fsm.readData (m : Fsm) : Option Byte :=
  m.access.bind fun x =>
    match x with
    | .read a => some (m.arch.load a)
    | .write _ _ => none

/-- Memory after an access on the port (R31, R32). -/
def Memory.afterAccess (m : Memory) : Option MemAccess → Memory
  | none => m
  | some (.read _) => m
  | some (.write a v) => Memory.write m a v

/-- `out_data` where `out_valid` is 1: in EXECUTE of PRN, once (R83, R102). DEDUCED: the phase of the strobe; safe (log 15). -/
def Fsm.outPort (m : Fsm) : Option Byte :=
  match m.phase with
  | .execute => m.decoded.toOption.bind fun i => emitted i m.arch
  | .load => none
  | .fetch0 => none
  | .fetch1 => none
  | .fetch2 => none
  | .decode => none
  | .halted => none
  | .faulted => none

/-- The output ports of the block (R83). `access` is `mem_addr`, `mem_we`, `mem_wdata`; `out` is `out_valid`, `out_data`. -/
structure Ports where
  access : Option MemAccess
  out : Option Byte
  state : BitVec 2
  faultCause : BitVec 3
  faultInfo : Byte
  tracePc : Byte
  traceReg : Vector Byte 8
  deriving DecidableEq, Repr

/-- The output ports (R83). -/
def Fsm.ports (m : Fsm) : Ports :=
  { access := m.access, out := m.outPort, state := m.arch.runState.code, faultCause := m.arch.faultCause.code,
    faultInfo := m.arch.faultInfo, tracePc := (trace m.arch).pc, traceReg := (trace m.arch).regs }

/-- LOAD while `rst` is 1: the registers are held at their reset values and the Loader owns the memory port (R81, R160, D21). On
the transition into LOAD the Loader does not write yet. DESIGN CHOICE; unsafe for that one transition (log 11). On it the core's
access in progress is abandoned too: a write of PUSH or CALL that the port shows in EXECUTE does not land, and a byte of PRN that it
shows with `out_valid` is in no `OUT`, which is empty after reset (R27). The spec says only that the run is abandoned (R160).
DESIGN CHOICE for the write; unsafe for that one transition (log 19). -/
def Fsm.holdReset (m : Fsm) (write : Option LoaderWrite) : Fsm :=
  let cleared := m.arch.assertReset
  match m.phase, write with
  | .load, some w => { m with phase := .load, arch := cleared.store w.addr w.data }
  | _, _ => { m with phase := .load, arch := cleared }

/-- DECODE: the opcode and then the register indices the instruction uses are checked (R81, R142). -/
def Fsm.decodePhase (m : Fsm) : Fsm :=
  match m.decoded with
  | .error r => { m with arch := m.arch.raiseReject r, phase := .faulted }
  | .ok i =>
    match i.firstBadOperand with
    | some x => { m with arch := m.arch.raise .invalidRegister x, phase := .faulted }
    | none => { m with phase := .execute }

/-- EXECUTE: the instruction's effect, and the FSM state that `STATE` then asks for (R81). The last two arms are never taken:
DECODE goes to EXECUTE with an instruction, and every instruction answers a next state. -/
def Fsm.executePhase (m : Fsm) : Fsm :=
  match m.decoded with
  | .ok i =>
    match exec i m.arch with
    | .next t => { m with arch := t, phase := Phase.ofRunState t.runState }
    | .fault r => nomatch r
    | .refused _ => m
  | .error _ => m

/-- One transition of the control FSM (R81). -/
def Fsm.advance (inp : FsmInputs) (m : Fsm) : Fsm :=
  if inp.rst then m.holdReset inp.loader
  else
    match m.phase with
    | .load => { m with phase := .fetch0, arch := m.arch.assertReset }
    | .fetch0 => { m with ir := m.arch.load m.arch.pc, phase := .fetch1 }
    | .fetch1 => { m with opa := m.arch.load (m.arch.pc + 1), phase := .fetch2 }
    | .fetch2 => { m with opb := m.arch.load (m.arch.pc + 2), phase := .decode }
    | .decode => m.decodePhase
    | .execute => m.executePhase
    | .halted => m
    | .faulted => m

/-- `n` transitions of a run that nothing disturbs. -/
def Fsm.run : Nat → Fsm → Fsm
  | 0, m => m
  | n + 1, m => Fsm.run n (m.advance FsmInputs.idle)

end Sys2Proof.Machine
end

