-- ==== Sys2Proof/Safety.lean ====
section
/-! DEFINITION. The terms in which claims about the machine are made: the opcode sets of R58 written out, the registers of R13, the
invariant of every run, and a safe run. -/

namespace Sys2Proof.Machine

/-! ## Opcode sets (R58), as bytes and not through the decoder's constants -/

/-- The four ALU opcodes. -/
def aluBytes : List Byte := [0xA0, 0xA1, 0xA2, 0xA3]

/-- The eight handler opcodes. -/
def handlerBytes : List Byte := [0x01, 0x11, 0x45, 0x46, 0x47, 0x50, 0x54, 0x82]

/-- The opcodes whose operand_a is a register index (R53): all but HLT and RET. -/
def indexingBytes : List Byte := [0x45, 0x46, 0x47, 0x50, 0x54, 0x82, 0xA0, 0xA1, 0xA2, 0xA3]

/-! ## Registers (R13) -/

/-- The "reads" column of R13. -/
def registersRead : Instr → List (Fin 8)
  | .hlt => []
  | .ret => [7]
  | .push a => 7 :: (regIndex? a).toList
  | .pop _ => [7]
  | .prn a => (regIndex? a).toList
  | .call a => 7 :: (regIndex? a).toList
  | .jmp a => (regIndex? a).toList
  | .ldi _ _ => []
  | .add a b => (regIndex? a).toList ++ (regIndex? b).toList
  | .sub a b => (regIndex? a).toList ++ (regIndex? b).toList
  | .mul a b => (regIndex? a).toList ++ (regIndex? b).toList
  | .div a b => (regIndex? a).toList ++ (regIndex? b).toList

/-- The "writes" column of R13. -/
def registersWritten : Instr → List (Fin 8)
  | .hlt => []
  | .ret => [7]
  | .push _ => [7]
  | .pop a => (regIndex? a).toList ++ [7]
  | .prn _ => []
  | .call _ => [7]
  | .jmp _ => []
  | .ldi a _ => (regIndex? a).toList
  | .add a _ => (regIndex? a).toList
  | .sub a _ => (regIndex? a).toList
  | .mul a _ => (regIndex? a).toList
  | .div a _ => (regIndex? a).toList

/-! ## Equal states, as an observer sees them -/

/-- Every cell of memory reads the same. -/
def SameMemory (s t : State) : Prop := ∀ a : Byte, t.load a = s.load a

/-- Every register but those listed is the same. -/
def SameRegistersBut (written : List (Fin 8)) (s t : State) : Prop := ∀ k : Fin 8, k ∉ written → t.reg k = s.reg k

/-- `STATE`, `FAULT_CAUSE` and `FAULT_INFO` are the same. -/
def SameStatus (s t : State) : Prop :=
  t.runState = s.runState ∧ t.faultCause = s.faultCause ∧ t.faultInfo = s.faultInfo

/-- `t` is `s` after the fault entry of R132: the three status registers have the given values and nothing else changed (R135). -/
def FaultedFrom (s t : State) (cause : FaultCause) (info : Byte) : Prop :=
  t.runState = .faulted ∧ t.faultCause = cause ∧ t.faultInfo = info ∧
    SameRegistersBut [] s t ∧ t.pc = s.pc ∧ SameMemory s t ∧ t.out = s.out

/-- `s` with another output stream. -/
def State.withOut (s : State) (o : List Byte) : State := { s with out := o }

/-! ## The invariant of every run -/

/-- A Faulted machine shows its fault: cause and information agree with the bytes that still stand at `PC` (R134, R135,
R138 to R142), and the cause is not the one no instruction raises (R137). -/
def FaultExplained (s : State) : Prop :=
  match s.faultCause with
  | .none => False
  | .outOfBoundsAddress => False
  | .invalidRegister =>
    8 ≤ s.faultInfo.toNat ∧
      ((s.fetch.ir ∈ indexingBytes ∧ s.faultInfo = s.fetch.opa) ∨
        (s.fetch.ir ∈ aluBytes ∧ s.fetch.opa.toNat < 8 ∧ s.faultInfo = s.fetch.opb))
  | .divisionByZero =>
    s.faultInfo = 0x00 ∧ s.fetch.ir = 0xA3 ∧ s.fetch.opa.toNat < 8 ∧
      ∃ j : Fin 8, s.fetch.opb.toNat = j.val ∧ s.reg j = 0x00
  | .unsupportedAluOperation =>
    s.faultInfo = s.fetch.ir ∧ s.fetch.ir.getLsbD 5 = true ∧ s.fetch.ir ∉ aluBytes
  | .unknownOpcode =>
    s.faultInfo = s.fetch.ir ∧ s.fetch.ir.getLsbD 5 = false ∧ s.fetch.ir ∉ handlerBytes

/-- What holds of every state a run reaches. -/
structure Inv (s : State) : Prop where
  /-- Memory keeps its canonical form. -/
  mem_wf : Memory.wf s.mem = true
  /-- The fault registers are 0 while `STATE` is Running or Halted (R19). -/
  fault_registers_clear : s.runState ≠ .faulted → s.faultCause = .none ∧ s.faultInfo = 0x00
  /-- A Faulted machine shows its fault. -/
  fault_explained : s.runState = .faulted → FaultExplained s
  /-- A Halted machine stands at the HLT that halted it (R18, R100). -/
  halted_at_hlt : s.runState = .halted → s.fetch.ir = 0x01

/-- What holds of the control FSM between its transitions, whatever the inputs were. -/
structure FsmInv (m : Fsm) : Prop where
  /-- The architectural state satisfies the invariant of every run. -/
  arch_inv : Inv m.arch
  /-- `STATE` is the coarsening of the FSM's state (R81). -/
  coarsening : m.arch.runState = m.phase.runState
  /-- In LOAD the registers are held at their reset values (R81). -/
  held_in_load : m.phase = .load → m.arch = State.afterReset m.arch.mem
  /-- After FETCH0 `IR` holds the byte at `PC`. -/
  ir_latched : m.phase ∈ [Phase.fetch1, .fetch2, .decode, .execute] → m.ir = m.arch.fetch.ir
  /-- After FETCH1 `OPA` holds the byte at `PC + 1`. -/
  opa_latched : m.phase ∈ [Phase.fetch2, .decode, .execute] → m.opa = m.arch.fetch.opa
  /-- After FETCH2 `OPB` holds the byte at `PC + 2`. -/
  opb_latched : m.phase ∈ [Phase.decode, .execute] → m.opb = m.arch.fetch.opb
  /-- EXECUTE is reached only with an instruction whose register indices DECODE has found valid. -/
  checked : m.phase = .execute → ∃ i, m.decoded = .ok i ∧ i.wellFormed = true

/-! ## Runs -/

/-- A safe run: no number of steps leads to Faulted. -/
def NeverFaults (s : State) : Prop :=
  ∀ (n : Nat) (t : State), Sys2Proof.core.run n s = .next t → t.runState ≠ .faulted

/-- A run that does not end: after every number of steps the machine is Running (R80, R85). -/
def NeverEnds (s : State) : Prop :=
  ∀ (n : Nat) (t : State), Sys2Proof.core.run n s = .next t → t.runState = .running

end Sys2Proof.Machine
end

