-- ==== Sys2Proof/Certificates/Slice0/Obligations.lean ====
section
/-! DEFINITION. The statements for the provers. Opcode bytes and constants of the rules are written out as literals here, so that a
statement does not inherit a slip of the model's own constants. Where a rule carries a decision D<n> of the spec, the docstring
names it. -/

open Sys2Proof Sys2Proof.Machine

/-! ## Each instruction: encoding, faults, effect, frame (tier 1) -/

/-- R91 whole (encoding by D6, wrap by D1, order of checks by D10, precise fault by D9): ADD Ra,Rb. -/
def Obligations.AddWritesSumModulo256 : Prop :=
  ∀ (a b : Byte) (s : State),
    encode (.add a b) = [0xA0, a, b] ∧
    (8 ≤ a.toNat → ∃ t, exec (.add a b) s = .next t ∧ FaultedFrom s t .invalidRegister a) ∧
    (a.toNat < 8 → 8 ≤ b.toNat → ∃ t, exec (.add a b) s = .next t ∧ FaultedFrom s t .invalidRegister b) ∧
    (∀ i j : Fin 8, a.toNat = i.val → b.toNat = j.val →
      ∃ t, exec (.add a b) s = .next t ∧
        (t.reg i).toNat = ((s.reg i).toNat + (s.reg j).toNat) % 256 ∧
        t.pc.toNat = (s.pc.toNat + 3) % 256 ∧
        SameRegistersBut [i] s t ∧ SameStatus s t ∧ SameMemory s t ∧ t.out = s.out)

/-- R92 whole (D1, D6, D9, D10): SUB Ra,Rb. -/
def Obligations.SubWritesDifferenceModulo256 : Prop :=
  ∀ (a b : Byte) (s : State),
    encode (.sub a b) = [0xA1, a, b] ∧
    (8 ≤ a.toNat → ∃ t, exec (.sub a b) s = .next t ∧ FaultedFrom s t .invalidRegister a) ∧
    (a.toNat < 8 → 8 ≤ b.toNat → ∃ t, exec (.sub a b) s = .next t ∧ FaultedFrom s t .invalidRegister b) ∧
    (∀ i j : Fin 8, a.toNat = i.val → b.toNat = j.val →
      ∃ t, exec (.sub a b) s = .next t ∧
        ((t.reg i).toNat : Int) = (((s.reg i).toNat : Int) - ((s.reg j).toNat : Int)) % 256 ∧
        t.pc.toNat = (s.pc.toNat + 3) % 256 ∧
        SameRegistersBut [i] s t ∧ SameStatus s t ∧ SameMemory s t ∧ t.out = s.out)

/-- R93 whole (D1, D6, D9, D10): MUL Ra,Rb. -/
def Obligations.MulWritesProductModulo256 : Prop :=
  ∀ (a b : Byte) (s : State),
    encode (.mul a b) = [0xA2, a, b] ∧
    (8 ≤ a.toNat → ∃ t, exec (.mul a b) s = .next t ∧ FaultedFrom s t .invalidRegister a) ∧
    (a.toNat < 8 → 8 ≤ b.toNat → ∃ t, exec (.mul a b) s = .next t ∧ FaultedFrom s t .invalidRegister b) ∧
    (∀ i j : Fin 8, a.toNat = i.val → b.toNat = j.val →
      ∃ t, exec (.mul a b) s = .next t ∧
        (t.reg i).toNat = ((s.reg i).toNat * (s.reg j).toNat) % 256 ∧
        t.pc.toNat = (s.pc.toNat + 3) % 256 ∧
        SameRegistersBut [i] s t ∧ SameStatus s t ∧ SameMemory s t ∧ t.out = s.out)

/-- R94 whole (floor by D2; D6, D9, D10): DIV Ra,Rb, and DivisionByZero whatever `R[a]` holds. -/
def Obligations.DivWritesQuotientOrFaults : Prop :=
  ∀ (a b : Byte) (s : State),
    encode (.div a b) = [0xA3, a, b] ∧
    (8 ≤ a.toNat → ∃ t, exec (.div a b) s = .next t ∧ FaultedFrom s t .invalidRegister a) ∧
    (a.toNat < 8 → 8 ≤ b.toNat → ∃ t, exec (.div a b) s = .next t ∧ FaultedFrom s t .invalidRegister b) ∧
    (∀ i j : Fin 8, a.toNat = i.val → b.toNat = j.val → s.reg j = 0x00 →
      ∃ t, exec (.div a b) s = .next t ∧ FaultedFrom s t .divisionByZero 0x00) ∧
    (∀ i j : Fin 8, a.toNat = i.val → b.toNat = j.val → s.reg j ≠ 0x00 →
      ∃ t, exec (.div a b) s = .next t ∧
        (t.reg i).toNat = (s.reg i).toNat / (s.reg j).toNat ∧
        t.pc.toNat = (s.pc.toNat + 3) % 256 ∧
        SameRegistersBut [i] s t ∧ SameStatus s t ∧ SameMemory s t ∧ t.out = s.out)

/-- R100 whole (`PC` unchanged by D18, log 17): HLT, with any operand candidates; the halted state is terminal and gives exit
status 0; and a step reaches Halted only by HLT. -/
def Obligations.HltHaltsAndChangesNothingElse : Prop :=
  ∀ s : State,
    encode .hlt = [0x01] ∧ (∀ x y : Byte, decode 0x01 x y = .ok .hlt) ∧
    (∀ t : State, s.runState = .running → step s = .next t → t.runState = .halted → s.fetch.ir = 0x01) ∧
    ∃ t, exec .hlt s = .next t ∧
      t.runState = .halted ∧ t.pc = s.pc ∧ t.faultCause = s.faultCause ∧ t.faultInfo = s.faultInfo ∧
      SameRegistersBut [] s t ∧ SameMemory s t ∧ t.out = s.out ∧
      step t = .next t ∧ ∀ e : Config.ExitFault, exitStatus e t = some 0

/-- R101 whole: LDI Ra,imm8, for every byte as immediate. -/
def Obligations.LdiLoadsTheImmediate : Prop :=
  ∀ (a imm : Byte) (s : State),
    encode (.ldi a imm) = [0x82, a, imm] ∧
    (8 ≤ a.toNat → ∃ t, exec (.ldi a imm) s = .next t ∧ FaultedFrom s t .invalidRegister a) ∧
    (∀ i : Fin 8, a.toNat = i.val →
      ∃ t, exec (.ldi a imm) s = .next t ∧
        t.reg i = imm ∧ t.pc.toNat = (s.pc.toNat + 3) % 256 ∧
        SameRegistersBut [i] s t ∧ SameStatus s t ∧ SameMemory s t ∧ t.out = s.out)

/-- R102 whole (D13): PRN Ra, and no other instruction appends to `OUT`. -/
def Obligations.PrnAppendsTheRegister : Prop :=
  ∀ (a : Byte) (s : State),
    encode (.prn a) = [0x47, a] ∧
    (8 ≤ a.toNat → ∃ t, exec (.prn a) s = .next t ∧ FaultedFrom s t .invalidRegister a) ∧
    (∀ i : Fin 8, a.toNat = i.val →
      ∃ t, exec (.prn a) s = .next t ∧
        t.out = s.out ++ [s.reg i] ∧ t.pc.toNat = (s.pc.toNat + 2) % 256 ∧
        SameRegistersBut [] s t ∧ SameStatus s t ∧ SameMemory s t) ∧
    (∀ (i : Instr) (t : State), (∀ x : Byte, i ≠ .prn x) → exec i s = .next t → t.out = s.out)

/-- R111 and R112 whole (opcode by D5, wrap by D3, register 7 by D17; log 3, log 5): PUSH Ra. The address stored to is `SP`
after the decrement, `s.decSp.sp`. -/
def Obligations.PushStoresBelowTheStackPointer : Prop :=
  ∀ (a : Byte) (s : State),
    encode (.push a) = [0x45, a] ∧
    (8 ≤ a.toNat → ∃ t, exec (.push a) s = .next t ∧ FaultedFrom s t .invalidRegister a) ∧
    (∀ i : Fin 8, a.toNat = i.val →
      ∃ t, exec (.push a) s = .next t ∧
        (s.decSp.sp.toNat : Int) = ((s.sp.toNat : Int) - 1) % 256 ∧
        t.sp = s.decSp.sp ∧
        t.load s.decSp.sp = (if i = 7 then s.decSp.sp else s.reg i) ∧
        (∀ x : Byte, x ≠ s.decSp.sp → t.load x = s.load x) ∧
        t.pc.toNat = (s.pc.toNat + 2) % 256 ∧
        SameRegistersBut [7] s t ∧ SameStatus s t ∧ t.out = s.out)

/-- R114 and R115 whole (opcode by D5, wrap by D3, register 7 by D17; log 3, log 5): POP Ra. -/
def Obligations.PopLoadsFromTheStackPointer : Prop :=
  ∀ (a : Byte) (s : State),
    encode (.pop a) = [0x46, a] ∧
    (8 ≤ a.toNat → ∃ t, exec (.pop a) s = .next t ∧ FaultedFrom s t .invalidRegister a) ∧
    (∀ i : Fin 8, a.toNat = i.val →
      ∃ t, exec (.pop a) s = .next t ∧
        (i ≠ 7 → t.reg i = s.load s.sp ∧ t.sp.toNat = (s.sp.toNat + 1) % 256) ∧
        (i = 7 → t.sp.toNat = ((s.load s.sp).toNat + 1) % 256) ∧
        t.pc.toNat = (s.pc.toNat + 2) % 256 ∧
        SameRegistersBut [i, 7] s t ∧ SameStatus s t ∧ SameMemory s t ∧ t.out = s.out)

/-- R120, R121 and R122 whole (opcode by D5, wraps by D3 and D4, register 7 by D17; log 3, log 5): CALL Ra. -/
def Obligations.CallPushesReturnAddressAndJumps : Prop :=
  ∀ (a : Byte) (s : State),
    encode (.call a) = [0x50, a] ∧
    (8 ≤ a.toNat → ∃ t, exec (.call a) s = .next t ∧ FaultedFrom s t .invalidRegister a) ∧
    (∀ i : Fin 8, a.toNat = i.val →
      ∃ t, exec (.call a) s = .next t ∧
        (s.decSp.sp.toNat : Int) = ((s.sp.toNat : Int) - 1) % 256 ∧
        t.sp = s.decSp.sp ∧
        (t.load s.decSp.sp).toNat = (s.pc.toNat + 2) % 256 ∧
        (∀ x : Byte, x ≠ s.decSp.sp → t.load x = s.load x) ∧
        t.pc = (if i = 7 then s.decSp.sp else s.reg i) ∧
        SameRegistersBut [7] s t ∧ SameStatus s t ∧ t.out = s.out)

/-- R123 whole (opcode by D5, wrap by D3; log 3): RET, with any operand candidates. -/
def Obligations.RetPopsIntoThePc : Prop :=
  ∀ s : State,
    encode .ret = [0x11] ∧ (∀ x y : Byte, decode 0x11 x y = .ok .ret) ∧
    ∃ t, exec .ret s = .next t ∧
      t.pc = s.load s.sp ∧ t.sp.toNat = (s.sp.toNat + 1) % 256 ∧
      SameRegistersBut [7] s t ∧ SameStatus s t ∧ SameMemory s t ∧ t.out = s.out

/-- R124 whole (opcode by D5; log 3): JMP Ra. -/
def Obligations.JmpReplacesOnlyThePc : Prop :=
  ∀ (a : Byte) (s : State),
    encode (.jmp a) = [0x54, a] ∧
    (8 ≤ a.toNat → ∃ t, exec (.jmp a) s = .next t ∧ FaultedFrom s t .invalidRegister a) ∧
    (∀ i : Fin 8, a.toNat = i.val →
      ∃ t, exec (.jmp a) s = .next t ∧
        t.pc = s.reg i ∧ SameRegistersBut [] s t ∧ SameStatus s t ∧ SameMemory s t ∧ t.out = s.out)

/-! ## More on the ALU and the stack -/

/-- R96: with one register for both operands, both sides are its old value. -/
def Obligations.AluReadsBothOperandsBeforeWriting : Prop :=
  ∀ (a : Byte) (i : Fin 8) (s : State), a.toNat = i.val →
    (∃ t, exec (.add a a) s = .next t ∧ (t.reg i).toNat = 2 * (s.reg i).toNat % 256) ∧
    (∃ t, exec (.sub a a) s = .next t ∧ t.reg i = 0x00) ∧
    (∃ t, exec (.mul a a) s = .next t ∧ (t.reg i).toNat = (s.reg i).toNat ^ 2 % 256) ∧
    (s.reg i ≠ 0x00 → ∃ t, exec (.div a a) s = .next t ∧ t.reg i = 0x01) ∧
    (s.reg i = 0x00 → ∃ t, exec (.div a a) s = .next t ∧ FaultedFrom s t .divisionByZero 0x00)

/-- R97 (D1, C5): the arithmetic law modulo 256 always, and exactly when, and only when, the exact result is in 0..255. -/
def Obligations.ArithmeticLawExactInRange : Prop :=
  ∀ (a b : Byte) (i j : Fin 8) (s : State), a.toNat = i.val → b.toNat = j.val →
    (∃ t, exec (.mul a b) s = .next t ∧
      ((t.reg i).toNat : Int) = ((s.reg i).toNat : Int) * (s.reg j).toNat % 256 ∧
      ((t.reg i).toNat = (s.reg i).toNat * (s.reg j).toNat ↔ (s.reg i).toNat * (s.reg j).toNat ≤ 255)) ∧
    (∃ t, exec (.add a b) s = .next t ∧
      ((t.reg i).toNat : Int) = (((s.reg i).toNat : Int) + (s.reg j).toNat) % 256 ∧
      ((t.reg i).toNat = (s.reg i).toNat + (s.reg j).toNat ↔ (s.reg i).toNat + (s.reg j).toNat ≤ 255)) ∧
    (∃ t, exec (.sub a b) s = .next t ∧
      ((t.reg i).toNat : Int) = (((s.reg i).toNat : Int) - (s.reg j).toNat) % 256 ∧
      (((t.reg i).toNat : Int) = ((s.reg i).toNat : Int) - (s.reg j).toNat ↔ (s.reg j).toNat ≤ (s.reg i).toNat))

/-- R113 (D3; log 4): the stack pointer wraps in both directions, without a fault. -/
def Obligations.StackPointerWrapsWithoutFault : Prop :=
  ∀ (a : Byte) (i : Fin 8) (s : State), a.toNat = i.val → s.runState = .running →
    (s.sp = 0x00 →
      (∃ t, exec (.push a) s = .next t ∧ t.sp = 0xFF ∧ t.load 0xFF = (if i = 7 then 0xFF else s.reg i) ∧
        t.runState = .running) ∧
      (∃ t, exec (.call a) s = .next t ∧ t.sp = 0xFF ∧ (t.load 0xFF).toNat = (s.pc.toNat + 2) % 256 ∧
        t.runState = .running)) ∧
    (s.sp = 0xFF →
      (i ≠ 7 → ∃ t, exec (.pop a) s = .next t ∧ t.reg i = s.load 0xFF ∧ t.sp = 0x00 ∧ t.runState = .running) ∧
      (i = 7 → ∃ t, exec (.pop a) s = .next t ∧ t.sp.toNat = ((s.load 0xFF).toNat + 1) % 256 ∧ t.runState = .running) ∧
      (∃ t, exec .ret s = .next t ∧ t.pc = s.load 0xFF ∧ t.sp = 0x00 ∧ t.runState = .running))

/-- The round trip PUSH Rn; POP Rm for n, m in 0..6 and every stack pointer (section 3 of 43_stack.md, C6). -/
def Obligations.PushThenPopRestores : Prop :=
  ∀ (a b : Byte) (n m : Fin 8) (s : State), a.toNat = n.val → b.toNat = m.val → n ≠ 7 → m ≠ 7 →
    ∃ t u, exec (.push a) s = .next t ∧ exec (.pop b) t = .next u ∧
      u.reg m = s.reg n ∧ u.sp = s.sp ∧ SameRegistersBut [m] s u ∧
      (∀ x : Byte, x ≠ s.decSp.sp → u.load x = s.load x)

/-- Call and return integrity: whatever the subroutine does, if it leaves `SP` and the cell at `SP` as it found them, RET comes
back to the address after the CALL and `SP` to its value before it (section of R126 in 44_control_transfer.md). -/
def Obligations.ReturnComesBackAfterTheCall : Prop :=
  ∀ (a : Byte) (i : Fin 8) (s : State), a.toNat = i.val → i ≠ 7 →
    ∃ t, exec (.call a) s = .next t ∧ t.pc = s.reg i ∧
      ∀ u : State, u.sp = t.sp → u.load u.sp = t.load t.sp →
        ∃ v, exec .ret u = .next v ∧ v.pc.toNat = (s.pc.toNat + 2) % 256 ∧ v.sp = s.sp

/-- A byte pushed into the instruction stream is the next opcode fetched, and an instruction runs with the bytes that stood
there before its own store (section 5 of 20_memory.md, section 3 of 70_reset_and_hazards.md). -/
def Obligations.StoredByteIsFetchedNext : Prop :=
  ∀ (a : Byte) (i : Fin 8) (s : State), a.toNat = i.val → s.runState = .running → s.fetch.decode = .ok (.push a) →
    ∃ t, step s = .next t ∧ t.pc = s.pc + 2 ∧
      (s.decSp.sp = s.pc + 2 → t.fetch.ir = (if i = 7 then s.decSp.sp else s.reg i)) ∧
      (s.decSp.sp = s.pc → t.load s.pc = (if i = 7 then s.decSp.sp else s.reg i) ∧ t.sp = s.decSp.sp)

/-- A jump to itself changes nothing and never ends, without a fault: the machine has no watchdog (section 2 of
40_fetch_decode_dispatch.md, corner cases of JMP). -/
def Obligations.JumpToItselfNeverEnds : Prop :=
  ∀ (a : Byte) (i : Fin 8) (s : State), a.toNat = i.val → s.runState = .running →
    s.fetch.decode = .ok (.jmp a) → s.reg i = s.pc →
    step s = .next s ∧ NeverEnds s ∧ NeverFaults s

/-! ## Memory -/

/-- R32: a write sets its cell and changes no other cell and no other state. -/
def Obligations.StoreChangesOnlyItsCell : Prop :=
  ∀ (s : State) (a v : Byte),
    (s.store a v).load a = v ∧ (∀ x : Byte, x ≠ a → (s.store a v).load x = s.load x) ∧
    SameRegistersBut [] s (s.store a v) ∧ (s.store a v).pc = s.pc ∧ SameStatus s (s.store a v) ∧
    (s.store a v).out = s.out

/-- Canonical memories that read the same are the same data (a property of the model's representation, log 1). -/
def Obligations.CanonicalMemoriesAreDeterminedByReads : Prop :=
  ∀ m n : Memory, Memory.wf m = true → Memory.wf n = true → (∀ a : Byte, Memory.read m a = Memory.read n a) → m = n

/-- The memory effect and the output of every instruction are exactly the access on its port and the byte it emits: all other
cells and `OUT` are unchanged (R36 and R38 of 20_memory.md; the port is the spec's own sketch, D15). -/
def Obligations.ExecutionMatchesThePorts : Prop :=
  ∀ (i : Instr) (s t : State), exec i s = .next t →
    (∀ x : Byte, t.load x = Memory.read (Memory.afterAccess s.mem (dataAccess i s)) x) ∧
    t.out = s.out ++ (emitted i s).toList

/-! ## Fetch, decode, step -/

/-- R71 and R72 (addresses modulo 256 by D4): the three fetch phases read `PC`, `PC + 1` and `PC + 2` into the latches, for
every opcode, and change no architectural state. -/
def Obligations.FetchReadsThreeBytesAndChangesNothing : Prop :=
  ∀ m : Fsm, m.phase = .fetch0 →
    (Fsm.run 3 m).phase = .decode ∧ (Fsm.run 3 m).arch = m.arch ∧
    (Fsm.run 3 m).ir = m.arch.load m.arch.pc ∧
    (Fsm.run 3 m).opa = m.arch.load (BitVec.ofNat 8 ((m.arch.pc.toNat + 1) % 256)) ∧
    (Fsm.run 3 m).opb = m.arch.load (BitVec.ofNat 8 ((m.arch.pc.toNat + 2) % 256)) ∧
    m.arch.fetch = ⟨(Fsm.run 3 m).ir, (Fsm.run 3 m).opa, (Fsm.run 3 m).opb⟩

/-- R52 (3 for bits `11` by D22): the decoder's outputs for every byte; the dispatch rejects every byte with bits `11`. -/
def Obligations.DecoderSplitsTheOpcodeByte : Prop :=
  ∀ ir : Byte, (decoder ir).operandCount = ir.toNat / 64 ∧
    (decoder ir).isAluOp = decide (ir.toNat / 32 % 2 = 1) ∧ (decoder ir).identity = ir ∧
    (ir.toNat / 64 = 3 → ∀ opa opb : Byte, ∃ r, decode ir opa opb = .error r)

/-- R58 (D5, D6, D7): the opcode table is closed; any other byte, fetched as an opcode, stops the run with a fault and executes
nothing, and bit 5 alone says which fault. -/
def Obligations.OpcodeTableIsClosed : Prop :=
  ∀ opa opb : Byte,
    decode 0xA0 opa opb = .ok (.add opa opb) ∧ decode 0xA1 opa opb = .ok (.sub opa opb) ∧
    decode 0xA2 opa opb = .ok (.mul opa opb) ∧ decode 0xA3 opa opb = .ok (.div opa opb) ∧
    decode 0x01 opa opb = .ok .hlt ∧ decode 0x11 opa opb = .ok .ret ∧
    decode 0x45 opa opb = .ok (.push opa) ∧ decode 0x46 opa opb = .ok (.pop opa) ∧
    decode 0x47 opa opb = .ok (.prn opa) ∧ decode 0x50 opa opb = .ok (.call opa) ∧
    decode 0x54 opa opb = .ok (.jmp opa) ∧ decode 0x82 opa opb = .ok (.ldi opa opb) ∧
    ∀ ir : Byte,
      (ir ∉ aluBytes → ir.getLsbD 5 = true → decode ir opa opb = .error (.unsupportedAluOperation ir)) ∧
      (ir ∉ handlerBytes → ir.getLsbD 5 = false → decode ir opa opb = .error (.unknownOpcode ir)) ∧
      (ir ∉ aluBytes → ir ∉ handlerBytes → ∀ s : State, s.runState = .running → s.fetch = ⟨ir, opa, opb⟩ →
        ∃ t, step s = .next t ∧
          FaultedFrom s t (if ir.getLsbD 5 then .unsupportedAluOperation else .unknownOpcode) ir)

/-- The counts of the section on illegal encodings in 30_encoding.md (D5, D6, D7): 12 instructions, 124 unsupported ALU
operations, 120 unknown opcodes. -/
def Obligations.OpcodeFatesAreCounted : Prop :=
  let fates := (List.range 256).map fun n => decode (BitVec.ofNat 8 n) 0x00 0x00
  fates.countP (fun d => d.toOption.isSome) = 12 ∧
  fates.countP (fun d => match d with | .error (.unsupportedAluOperation _) => true | _ => false) = 124 ∧
  fates.countP (fun d => match d with | .error (.unknownOpcode _) => true | _ => false) = 120

/-- A word of each family decodes to the instruction it stands for, numbered as the opcode table numbers its bits: the first
byte lowest (bytes of 95_test_vectors.md; opcodes by D5 and D6). -/
def Obligations.SampleWordsDecodeRight : Prop :=
  decodeTableWord 24 0x080082 = some (.ldi 0 8) ∧ decodeTableWord 16 0x0047 = some (.prn 0) ∧
  decodeTableWord 8 0x01 = some .hlt ∧ decodeTableWord 24 0x0100A0 = some (.add 0 1) ∧
  decodeTableWord 24 0x0302A1 = some (.sub 2 3) ∧ decodeTableWord 24 0x0100A2 = some (.mul 0 1) ∧
  decodeTableWord 24 0x0100A3 = some (.div 0 1) ∧ decodeTableWord 16 0x0245 = some (.push 2) ∧
  decodeTableWord 16 0x0346 = some (.pop 3) ∧ decodeTableWord 16 0x0150 = some (.call 1) ∧
  decodeTableWord 8 0x11 = some .ret ∧ decodeTableWord 16 0x0254 = some (.jmp 2) ∧
  decodeTableWord 8 0x00 = none

/-- Decoding inverts encoding, in memory and across the wrap at 0xFF, for every instruction and every operand byte: the bytes
at `PC` decode to an instruction exactly when its encoding stands there (30_encoding.md sections 1 and 3). -/
def Obligations.DecodeInvertsEncodeInMemory : Prop :=
  ∀ (s : State) (i : Instr),
    s.fetch.decode = .ok i ↔
      ∀ (k : Nat) (v : Byte), (encode i)[k]? = some v → s.load (s.pc + BitVec.ofNat 8 k) = v

/-- Operand candidates that the operand count leaves unused are ignored, for every opcode byte (section 6 of 20_memory.md). -/
def Obligations.UnusedOperandBytesAreIgnored : Prop :=
  ∀ ir a b a' b' : Byte,
    (ir.toNat / 64 = 0 → decode ir a b = decode ir a' b') ∧
    (ir.toNat / 64 = 1 → decode ir a b = decode ir a b')

/-- A step of a Running machine is the meaning of the instruction in the fetched bytes; nothing is added around it (the step
function of 40_fetch_decode_dispatch.md section 2). -/
def Obligations.StepRunsTheDecodedInstruction : Prop :=
  ∀ (s : State) (i : Instr), s.runState = .running → s.fetch.decode = .ok i → step s = exec i s

/-- The same from the bytes of memory: where the encoding of `i` stands at `PC`, the step is the meaning of `i`. -/
def Obligations.StepRunsTheEncodedInstruction : Prop :=
  ∀ (s : State) (i : Instr), s.runState = .running →
    (∀ (k : Nat) (v : Byte), (encode i)[k]? = some v → s.load (s.pc + BitVec.ofNat 8 k) = v) → step s = exec i s

/-- An instruction placed from outside is the one the next step runs, from any state (the model's stand-in for the Loader,
log 8). -/
def Obligations.PlacedWordRunsNext : Prop :=
  ∀ (s : State) (nbits w : Nat) (i : Instr), decodeTableWord nbits w = some i →
    step (s.withFetchWord nbits w) = exec i (s.withFetchWord nbits w)

/-- R76 (modulo 256 by D4): the generic advance is `1 + operand_count` with the count in bits 7:6 of the opcode byte, and it
happens only if the instruction did not fault. -/
def Obligations.GenericAdvanceFollowsOperandCount : Prop :=
  ∀ s t : State, s.runState = .running → step s = .next t → s.fetch.ir ∉ [0x01, 0x11, 0x50, 0x54] →
    (t.runState ≠ .faulted → t.pc.toNat = (s.pc.toNat + 1 + s.fetch.ir.toNat / 64) % 256 ∧
      (s.fetch.ir ∈ [0x82, 0xA0, 0xA1, 0xA2, 0xA3] → t.pc.toNat = (s.pc.toNat + 3) % 256) ∧
      (s.fetch.ir ∈ [0x47, 0x45, 0x46] → t.pc.toNat = (s.pc.toNat + 2) % 256)) ∧
    (t.runState = .faulted → t.pc = s.pc)

/-- R13: only the registers of the "writes" column change, and what an instruction does depends on no register outside the
"reads" column. -/
def Obligations.RegistersReadAndWrittenAreThoseListed : Prop :=
  ∀ (i : Instr) (s₁ s₂ t₁ t₂ : State), exec i s₁ = .next t₁ → exec i s₂ = .next t₂ →
    SameRegistersBut (registersWritten i) s₁ t₁ ∧
    (s₁.pc = s₂.pc → s₁.mem = s₂.mem → s₁.out = s₂.out → SameStatus s₁ s₂ →
      (∀ k ∈ registersRead i, s₁.reg k = s₂.reg k) →
      t₁.pc = t₂.pc ∧ t₁.mem = t₂.mem ∧ t₁.out = t₂.out ∧ SameStatus t₁ t₂ ∧
        ∀ k ∈ registersWritten i, t₁.reg k = t₂.reg k)

/-- R22: `OUT` is append-only, only PRN appends, one byte at a time, and no step can read it back. -/
def Obligations.OutputIsAppendOnlyAndUnread : Prop :=
  (∀ (s t : State) (o : List Byte), step s = .next t →
    ∃ added : List Byte, t.out = s.out ++ added ∧ added.length ≤ 1 ∧
      (added ≠ [] → s.fetch.ir = 0x47 ∧ ∃ i : Fin 8, s.fetch.opa.toNat = i.val ∧ added = [s.reg i]) ∧
      step (s.withOut o) = .next (t.withOut (o ++ added))) ∧
  (∀ (n : Nat) (s t : State), Sys2Proof.core.run n s = .next t → s.out <+: t.out)

/-! ## Faults and the end of a run -/

/-- R140 and R141 (D5, D6, D7): when the two opcode faults are raised, with the opcode byte as information, whatever the
operand bytes are; their codes; and how many bytes raise each. -/
def Obligations.IllegalOpcodesFault : Prop :=
  FaultCause.unsupportedAluOperation.code = 4 ∧ FaultCause.unknownOpcode.code = 5 ∧
  ((List.range 256).map (BitVec.ofNat 8)).countP (fun ir => ir.getLsbD 5 && !aluBytes.contains ir) = 124 ∧
  ((List.range 256).map (BitVec.ofNat 8)).countP (fun ir => !ir.getLsbD 5 && !handlerBytes.contains ir) = 120 ∧
  ∀ s t : State, s.runState = .running → step s = .next t →
    ((t.runState = .faulted ∧ t.faultCause = .unsupportedAluOperation) ↔
      (s.fetch.ir.getLsbD 5 = true ∧ s.fetch.ir ∉ aluBytes)) ∧
    (s.fetch.ir.getLsbD 5 = true → s.fetch.ir ∉ aluBytes → FaultedFrom s t .unsupportedAluOperation s.fetch.ir) ∧
    ((t.runState = .faulted ∧ t.faultCause = .unknownOpcode) ↔
      (s.fetch.ir.getLsbD 5 = false ∧ s.fetch.ir ∉ handlerBytes)) ∧
    (s.fetch.ir.getLsbD 5 = false → s.fetch.ir ∉ handlerBytes → FaultedFrom s t .unknownOpcode s.fetch.ir)

/-- R138 (D10, D16): InvalidRegister, code 2: when it is raised and with which byte; never by HLT or RET, never for the
immediate. -/
def Obligations.InvalidRegisterIsRaisedOnWholeBytes : Prop :=
  FaultCause.invalidRegister.code = 2 ∧ ∀ s t : State, s.runState = .running → step s = .next t →
    ((t.runState = .faulted ∧ t.faultCause = .invalidRegister) ↔
      ((s.fetch.ir ∈ indexingBytes ∧ 8 ≤ s.fetch.opa.toNat) ∨ (s.fetch.ir ∈ aluBytes ∧ 8 ≤ s.fetch.opb.toNat))) ∧
    (s.fetch.ir ∈ indexingBytes → 8 ≤ s.fetch.opa.toNat → FaultedFrom s t .invalidRegister s.fetch.opa) ∧
    (s.fetch.ir ∈ aluBytes → s.fetch.opa.toNat < 8 → 8 ≤ s.fetch.opb.toNat →
      FaultedFrom s t .invalidRegister s.fetch.opb)

/-- R139: DivisionByZero, code 3, is raised by DIV and only by DIV, when both indices are valid and the divisor register holds 0,
regardless of the other register. -/
def Obligations.DivisionByZeroIsRaisedOnlyByDiv : Prop :=
  FaultCause.divisionByZero.code = 3 ∧ ∀ s t : State, s.runState = .running → step s = .next t →
    ((t.runState = .faulted ∧ t.faultCause = .divisionByZero) ↔
      (s.fetch.ir = 0xA3 ∧ s.fetch.opa.toNat < 8 ∧ ∃ j : Fin 8, s.fetch.opb.toNat = j.val ∧ s.reg j = 0x00)) ∧
    (t.runState = .faulted → t.faultCause = .divisionByZero → FaultedFrom s t .divisionByZero 0x00)

/-- R137 (D3, D4): OutOfBoundsAddress, code 1: no instruction raises it. -/
def Obligations.OutOfBoundsIsNeverRaised : Prop :=
  FaultCause.outOfBoundsAddress.code = 1 ∧ ∀ s t : State, s.runState = .running → step s = .next t →
    ¬(t.runState = .faulted ∧ t.faultCause = .outOfBoundsAddress)

/-- R142 (D10): one instruction reports one fault, the first in the order opcode, operand_a, operand_b, divisor; where none
applies it does not fault. -/
def Obligations.FaultPriorityIsTheOrderOfChecks : Prop :=
  ∀ s t : State, s.runState = .running → step s = .next t →
    if s.fetch.ir ∉ aluBytes ∧ s.fetch.ir ∉ handlerBytes then
      FaultedFrom s t (if s.fetch.ir.getLsbD 5 then .unsupportedAluOperation else .unknownOpcode) s.fetch.ir
    else if s.fetch.ir ∈ indexingBytes ∧ 8 ≤ s.fetch.opa.toNat then FaultedFrom s t .invalidRegister s.fetch.opa
    else if s.fetch.ir ∈ aluBytes ∧ 8 ≤ s.fetch.opb.toNat then FaultedFrom s t .invalidRegister s.fetch.opb
    else if s.fetch.ir = 0xA3 ∧ ∃ j : Fin 8, s.fetch.opb.toNat = j.val ∧ s.reg j = 0x00 then
      FaultedFrom s t .divisionByZero 0x00
    else t.runState ≠ .faulted

/-- R135 (D9): faults are precise: a step that faults changes only the three status registers. -/
def Obligations.FaultsArePrecise : Prop :=
  ∀ s t : State, s.runState = .running → step s = .next t → t.runState = .faulted →
    FaultedFrom s t t.faultCause t.faultInfo

/-- R79: Halted and Faulted are terminal, for any number of steps; and the control FSM in them changes nothing, fetches nothing
and emits nothing while reset is not asserted, whatever the Loader asks for. -/
def Obligations.EndStatesAreTerminal : Prop :=
  (∀ (n : Nat) (s : State), s.runState ≠ .running → Sys2Proof.core.run n s = .next s) ∧
  (∀ (m : Fsm) (w : Option LoaderWrite), m.phase = .halted ∨ m.phase = .faulted →
    m.access = none ∧ m.outPort = none ∧ m.advance { rst := false, loader := w } = m)

/-- R169: the core never waits: a Running machine's step is an instruction it completes or a fault it takes; every instruction
and every number of steps has a next state; and a run that is Running after n steps has not paused or ended before. -/
def Obligations.EveryStepHasANextState : Prop :=
  (∀ (i : Instr) (s : State), ∃ t, exec i s = .next t) ∧
  (∀ s : State, s.runState = .running → ∃ t, step s = .next t ∧
    ((∃ i, s.fetch.decode = .ok i ∧ exec i s = .next t) ∨ t.runState = .faulted)) ∧
  (∀ (n : Nat) (s : State), ∃ t, Sys2Proof.core.run n s = .next t) ∧
  (∀ (n k : Nat) (s t u : State), k ≤ n → Sys2Proof.core.run n s = .next t → t.runState = .running →
    Sys2Proof.core.run k s = .next u → u.runState = .running)

/-- R18 (Faulted by D8): every transition of `STATE`. From Running, HLT is the only way to Halted, and a step that neither
halts nor faults stays in Running. -/
def Obligations.StateTransitionsAreThoseListed : Prop :=
  (∀ m : Memory, (State.afterReset m).runState = .running) ∧
  (∀ s t : State, s.runState = .running → step s = .next t →
    (t.runState = .halted ↔ s.fetch.ir = 0x01) ∧
    (t.runState = .faulted ↔ ∃ (c : FaultCause) (x : Byte), c ≠ .none ∧ t = s.raise c x)) ∧
  (∀ s t : State, s.runState ≠ .running → step s = .next t → t.runState = s.runState) ∧
  RunState.running.code = 0 ∧ RunState.halted.code = 1 ∧ RunState.faulted.code = 2

/-- R133 (D8): the cause codes, of which 6 and 7 are never produced and 0 is the code of a machine that is not Faulted. That last
clause has the invariant of every run as its premise: a state that no run reaches may carry a stray cause. -/
def Obligations.FaultCauseCodes : Prop :=
  FaultCause.none.code = 0 ∧ FaultCause.outOfBoundsAddress.code = 1 ∧ FaultCause.invalidRegister.code = 2 ∧
  FaultCause.divisionByZero.code = 3 ∧ FaultCause.unsupportedAluOperation.code = 4 ∧
  FaultCause.unknownOpcode.code = 5 ∧ (∀ c : FaultCause, c.code ≠ 6 ∧ c.code ≠ 7) ∧
  ∀ s : State, Inv s → (s.faultCause.code = 0 ↔ s.runState ≠ .faulted)

/-- The exit status of a run's end, with the parameter `EXIT_FAULT` (R152 of 60_exceptions.md, D14); that a machine which is still
Running gives none is the model's inference of log 13, for R152 speaks of the end of a run and of a run that never ends. -/
def Obligations.ExitStatusFollowsTheEndState : Prop :=
  ∀ (e : Config.ExitFault) (s : State),
    (s.runState = .halted → exitStatus e s = some 0) ∧
    (s.runState = .faulted → ∃ n, exitStatus e s = some n ∧ n ≠ 0 ∧ n ≠ 2 ∧ n = e.value) ∧
    (s.runState = .running → exitStatus e s = none) ∧
    Config.ExitFault.default.value = 1

/-- A printed value is its decimal numeral: digits only, no leading zeros, `0` for zero, one to three digits (R103 of
42_halt_load_print.md without the separator, which the spec keeps out of claims). -/
def Obligations.OutputRendersAsDecimal : Prop :=
  ∀ v : Byte,
    (decimalDigits v).foldl (fun n d => 10 * n + d) 0 = v.toNat ∧
    (∀ d ∈ decimalDigits v, d < 10) ∧
    (decimalDigits v).length = (if v.toNat < 10 then 1 else if v.toNat < 100 then 2 else 3) ∧
    decimalNumeral v = (decimalDigits v).map (fun d => "0123456789".toList.getD d '?')

/-! ## Reset and boot -/

/-- R27 (R0 to R6 by D11, fault registers by D8, memory the parameter `INIT_MEM` by D12; log 2): the machine when reset is
released, for every `INIT_MEM`. -/
def Obligations.ResetGivesTheListedValues : Prop :=
  ∀ image : Byte → Byte,
    (∀ k : Fin 8, k ≠ 7 → (State.resetWith image).reg k = 0x00) ∧
    (State.resetWith image).reg 7 = 0xF4 ∧ (State.resetWith image).pc = 0x00 ∧
    (State.resetWith image).runState = .running ∧ (State.resetWith image).faultCause.code = 0 ∧
    (State.resetWith image).faultInfo = 0x00 ∧ (State.resetWith image).out = [] ∧
    ∀ a : Byte, (State.resetWith image).load a = image a

/-- The model's choice of log 1: `State.reset` is the reset state of the `INIT_MEM` that is 0x00 in every cell. -/
def Obligations.ResetStateTakesZeroMemory : Prop :=
  State.reset = State.resetWith (fun _ => 0x00) ∧ ∀ a : Byte, State.reset.load a = 0x00

/-- R160 (D11, D15): `rst` at any time, in any state, gives the reset values and keeps memory but for what the Loader then
writes; it is the only way out of Halted and Faulted. Of a cell that a write of the core on the port addresses at that very
transition it says nothing: the spec does not (log 19). -/
def Obligations.ResetAtAnyTimeKeepsMemory : Prop :=
  ∀ (m : Fsm) (w : Option LoaderWrite) (x : LoaderWrite),
    let held := m.advance { rst := true, loader := none }
    let released := held.advance { rst := false, loader := w }
    held.phase = .load ∧ released.phase = .fetch0 ∧
    (∀ k : Fin 8, k ≠ 7 → released.arch.reg k = 0x00) ∧ released.arch.reg 7 = 0xF4 ∧ released.arch.pc = 0x00 ∧
    released.arch.runState = .running ∧ released.arch.faultCause.code = 0 ∧ released.arch.faultInfo = 0x00 ∧
    released.arch.out = [] ∧
    (∀ a : Byte, (∀ v : Byte, m.access ≠ some (.write a v)) → released.arch.load a = m.arch.load a) ∧
    (held.advance { rst := true, loader := some x }).phase = .load ∧
    (∀ a : Byte, (held.advance { rst := true, loader := some x }).arch.load a =
      if a = x.addr then x.data else held.arch.load a) ∧
    (m.phase = .halted ∨ m.phase = .faulted → m.advance { rst := false, loader := w } = m)

/-- The model's choice of log 19: an access of the core that is on the port when `rst` is asserted is abandoned, so that the whole
of memory is as it was before, the cell of a PUSH or CALL in EXECUTE among it, until the Loader writes. -/
def Obligations.ResetAbandonsTheAccessInProgress : Prop :=
  ∀ m : Fsm,
    let held := m.advance { rst := true, loader := none }
    SameMemory m.arch held.arch ∧ held.access = none ∧ held.outPort = none ∧
    ∀ x : LoaderWrite, (∀ a : Byte, (held.advance { rst := true, loader := some x }).arch.load a =
      if a = x.addr then x.data else m.arch.load a)

/-- The Loader has no access once reset is released, nor in any phase but LOAD (section 4 of 20_memory.md, D21; that it has none
on the transition into LOAD is the model's choice, log 11). -/
def Obligations.LoaderWritesOnlyInLoad : Prop :=
  ∀ (m : Fsm) (rst : Bool) (w : Option LoaderWrite), m.phase ≠ .load ∨ rst = false →
    m.advance { rst := rst, loader := w } = m.advance { rst := rst, loader := none }

/-- A loaded program stands in memory from address 0 (section 1 of 70_reset_and_hazards.md), and the cells past it read 0x00 by
the model's choice of log 1; bytes past the 256th are dropped by log 12. -/
def Obligations.BootLoadsTheProgramFromZero : Prop :=
  ∀ (program : List Byte) (a : Byte),
    (State.boot program).load a = program.getD a.toNat 0x00 ∧ (State.boot program).pc = 0x00

/-! ## Invariants and the control FSM -/

/-- The invariant holds at reset, for every `INIT_MEM`. -/
def Obligations.ResetSatisfiesInvariant : Prop :=
  Inv State.reset ∧ ∀ image : Byte → Byte, Inv (State.resetWith image)

/-- Every step keeps the invariant: memory stays canonical, the fault registers are 0 unless Faulted, and the end of a run is
explained by the bytes at `PC` (10_state.md section 5, 60_exceptions.md sections 1 to 3). -/
def Obligations.StepKeepsInvariant : Prop :=
  ∀ s t : State, Inv s → step s = .next t → Inv t

/-- R82 (D15): the memory port in each FSM state. -/
def Obligations.MemoryPortByPhase : Prop :=
  ∀ m : Fsm,
    (m.phase = .fetch0 → m.access = some (.read m.arch.pc)) ∧
    (m.phase = .fetch1 → m.access = some (.read (m.arch.pc + 1))) ∧
    (m.phase = .fetch2 → m.access = some (.read (m.arch.pc + 2))) ∧
    (m.phase ∈ [Phase.load, .decode, .halted, .faulted] → m.access = none) ∧
    (m.phase = .load → ∀ x : LoaderWrite,
      (m.advance { rst := true, loader := some x }).arch.load x.addr = x.data) ∧
    (m.phase = .execute → ∀ i : Instr, m.decoded = .ok i → i.wellFormed = true →
      (i.opcode ∈ [0x46, 0x11] → m.access = some (.read m.arch.sp)) ∧
      (i.opcode ∈ [0x45, 0x50] → ∃ v, m.access = some (.write (m.arch.sp - 1) v)) ∧
      (i.opcode ∉ [0x46, 0x11, 0x45, 0x50] → m.access = none))

/-- The control FSM realises the step: from FETCH0 of a Running machine some number of transitions reaches exactly the state the
step answers, the architectural state changes in the last of them only, and the FSM rests where `STATE` says (40 section 3; the
FSM is the spec's own sketch, D15, and the number of transitions is no duration, log 10). -/
def Obligations.FsmRealisesTheStep : Prop :=
  ∀ (m : Fsm) (t : State), m.phase = .fetch0 → m.arch.runState = .running → step m.arch = .next t →
    ∃ n, (∀ k, k ≤ n → (Fsm.run k m).arch = m.arch ∧ (Fsm.run k m).phase.runState = .running) ∧
      (Fsm.run (n + 1) m).arch = t ∧ (Fsm.run (n + 1) m).phase = Phase.ofRunState t.runState

/-- Every transition keeps the FSM's invariant, whatever reset and the Loader do: `STATE` coarsens the FSM state, the latches
hold the bytes at `PC`, and EXECUTE sees only checked instructions (40 section 3, D15). -/
def Obligations.FsmKeepsInvariant : Prop :=
  ∀ (inp : FsmInputs) (m : Fsm), FsmInv m → FsmInv (m.advance inp)
end

