-- ==== Sys2Proof/Laws/State.lean ====
section
/-! SUPPORT. One lemma per field per update, so that no later proof unfolds a record update. -/

namespace Sys2Proof.Machine

/-! ## `setReg` -/

@[simp] theorem setReg_pc (s : State) (i : Fin 8) (v : Byte) : (s.setReg i v).pc = s.pc := rfl
@[simp] theorem setReg_runState (s : State) (i : Fin 8) (v : Byte) : (s.setReg i v).runState = s.runState := rfl
@[simp] theorem setReg_faultCause (s : State) (i : Fin 8) (v : Byte) : (s.setReg i v).faultCause = s.faultCause := rfl
@[simp] theorem setReg_faultInfo (s : State) (i : Fin 8) (v : Byte) : (s.setReg i v).faultInfo = s.faultInfo := rfl
@[simp] theorem setReg_mem (s : State) (i : Fin 8) (v : Byte) : (s.setReg i v).mem = s.mem := rfl
@[simp] theorem setReg_out (s : State) (i : Fin 8) (v : Byte) : (s.setReg i v).out = s.out := rfl

/-- A register reads what was last written to it, and the others as before. -/
theorem reg_setReg (s : State) (i k : Fin 8) (v : Byte) :
    (s.setReg i v).reg k = if k = i then v else s.reg k := by
  obtain ⟨i, hi⟩ := i
  obtain ⟨k, hk⟩ := k
  simp only [State.reg, State.setReg, Vector.get_eq_getElem, Vector.getElem_set, Fin.mk.injEq, eq_comm]

@[simp] theorem reg_setReg_self (s : State) (i : Fin 8) (v : Byte) : (s.setReg i v).reg i = v := by
  simp [reg_setReg]

theorem reg_setReg_ne (s : State) {i k : Fin 8} (v : Byte) (h : k ≠ i) : (s.setReg i v).reg k = s.reg k := by
  simp [reg_setReg, h]

/-! ## `setPc` and `advancePast` -/

@[simp] theorem setPc_regs (s : State) (t : Byte) : (s.setPc t).regs = s.regs := rfl
@[simp] theorem setPc_pc (s : State) (t : Byte) : (s.setPc t).pc = t := rfl
@[simp] theorem setPc_runState (s : State) (t : Byte) : (s.setPc t).runState = s.runState := rfl
@[simp] theorem setPc_faultCause (s : State) (t : Byte) : (s.setPc t).faultCause = s.faultCause := rfl
@[simp] theorem setPc_faultInfo (s : State) (t : Byte) : (s.setPc t).faultInfo = s.faultInfo := rfl
@[simp] theorem setPc_mem (s : State) (t : Byte) : (s.setPc t).mem = s.mem := rfl
@[simp] theorem setPc_out (s : State) (t : Byte) : (s.setPc t).out = s.out := rfl
@[simp] theorem setPc_reg (s : State) (t : Byte) (k : Fin 8) : (s.setPc t).reg k = s.reg k := rfl

@[simp] theorem advancePast_regs (s : State) (op : Byte) : (s.advancePast op).regs = s.regs := rfl
@[simp] theorem advancePast_pc (s : State) (op : Byte) :
    (s.advancePast op).pc = s.pc + 1 + BitVec.ofNat 8 (operandCount op) := rfl
@[simp] theorem advancePast_runState (s : State) (op : Byte) : (s.advancePast op).runState = s.runState := rfl
@[simp] theorem advancePast_faultCause (s : State) (op : Byte) : (s.advancePast op).faultCause = s.faultCause := rfl
@[simp] theorem advancePast_faultInfo (s : State) (op : Byte) : (s.advancePast op).faultInfo = s.faultInfo := rfl
@[simp] theorem advancePast_mem (s : State) (op : Byte) : (s.advancePast op).mem = s.mem := rfl
@[simp] theorem advancePast_out (s : State) (op : Byte) : (s.advancePast op).out = s.out := rfl
@[simp] theorem advancePast_reg (s : State) (op : Byte) (k : Fin 8) : (s.advancePast op).reg k = s.reg k := rfl

/-! ## `store` and `emit` -/

@[simp] theorem store_regs (s : State) (a v : Byte) : (s.store a v).regs = s.regs := rfl
@[simp] theorem store_pc (s : State) (a v : Byte) : (s.store a v).pc = s.pc := rfl
@[simp] theorem store_runState (s : State) (a v : Byte) : (s.store a v).runState = s.runState := rfl
@[simp] theorem store_faultCause (s : State) (a v : Byte) : (s.store a v).faultCause = s.faultCause := rfl
@[simp] theorem store_faultInfo (s : State) (a v : Byte) : (s.store a v).faultInfo = s.faultInfo := rfl
@[simp] theorem store_mem (s : State) (a v : Byte) : (s.store a v).mem = Memory.write s.mem a v := rfl
@[simp] theorem store_out (s : State) (a v : Byte) : (s.store a v).out = s.out := rfl
@[simp] theorem store_reg (s : State) (a v : Byte) (k : Fin 8) : (s.store a v).reg k = s.reg k := rfl

@[simp] theorem emit_regs (s : State) (v : Byte) : (s.emit v).regs = s.regs := rfl
@[simp] theorem emit_pc (s : State) (v : Byte) : (s.emit v).pc = s.pc := rfl
@[simp] theorem emit_runState (s : State) (v : Byte) : (s.emit v).runState = s.runState := rfl
@[simp] theorem emit_faultCause (s : State) (v : Byte) : (s.emit v).faultCause = s.faultCause := rfl
@[simp] theorem emit_faultInfo (s : State) (v : Byte) : (s.emit v).faultInfo = s.faultInfo := rfl
@[simp] theorem emit_mem (s : State) (v : Byte) : (s.emit v).mem = s.mem := rfl
@[simp] theorem emit_out (s : State) (v : Byte) : (s.emit v).out = s.out ++ [v] := rfl
@[simp] theorem emit_reg (s : State) (v : Byte) (k : Fin 8) : (s.emit v).reg k = s.reg k := rfl

/-! ## `halt` and `raise` -/

@[simp] theorem halt_regs (s : State) : s.halt.regs = s.regs := rfl
@[simp] theorem halt_pc (s : State) : s.halt.pc = s.pc := rfl
@[simp] theorem halt_runState (s : State) : s.halt.runState = .halted := rfl
@[simp] theorem halt_faultCause (s : State) : s.halt.faultCause = s.faultCause := rfl
@[simp] theorem halt_faultInfo (s : State) : s.halt.faultInfo = s.faultInfo := rfl
@[simp] theorem halt_mem (s : State) : s.halt.mem = s.mem := rfl
@[simp] theorem halt_out (s : State) : s.halt.out = s.out := rfl
@[simp] theorem halt_reg (s : State) (k : Fin 8) : s.halt.reg k = s.reg k := rfl

@[simp] theorem raise_regs (s : State) (c : FaultCause) (x : Byte) : (s.raise c x).regs = s.regs := rfl
@[simp] theorem raise_pc (s : State) (c : FaultCause) (x : Byte) : (s.raise c x).pc = s.pc := rfl
@[simp] theorem raise_runState (s : State) (c : FaultCause) (x : Byte) : (s.raise c x).runState = .faulted := rfl
@[simp] theorem raise_faultCause (s : State) (c : FaultCause) (x : Byte) : (s.raise c x).faultCause = c := rfl
@[simp] theorem raise_faultInfo (s : State) (c : FaultCause) (x : Byte) : (s.raise c x).faultInfo = x := rfl
@[simp] theorem raise_mem (s : State) (c : FaultCause) (x : Byte) : (s.raise c x).mem = s.mem := rfl
@[simp] theorem raise_out (s : State) (c : FaultCause) (x : Byte) : (s.raise c x).out = s.out := rfl
@[simp] theorem raise_reg (s : State) (c : FaultCause) (x : Byte) (k : Fin 8) : (s.raise c x).reg k = s.reg k := rfl

/-! ## `decSp` and `incSp` -/

@[simp] theorem decSp_pc (s : State) : s.decSp.pc = s.pc := rfl
@[simp] theorem decSp_runState (s : State) : s.decSp.runState = s.runState := rfl
@[simp] theorem decSp_faultCause (s : State) : s.decSp.faultCause = s.faultCause := rfl
@[simp] theorem decSp_faultInfo (s : State) : s.decSp.faultInfo = s.faultInfo := rfl
@[simp] theorem decSp_mem (s : State) : s.decSp.mem = s.mem := rfl
@[simp] theorem decSp_out (s : State) : s.decSp.out = s.out := rfl
@[simp] theorem decSp_sp (s : State) : s.decSp.sp = s.sp - 1 := by simp [State.decSp, State.sp]

theorem decSp_reg (s : State) (k : Fin 8) : s.decSp.reg k = if k = 7 then s.sp - 1 else s.reg k := by
  simp [State.decSp, reg_setReg, spIndex]

@[simp] theorem incSp_pc (s : State) : s.incSp.pc = s.pc := rfl
@[simp] theorem incSp_runState (s : State) : s.incSp.runState = s.runState := rfl
@[simp] theorem incSp_faultCause (s : State) : s.incSp.faultCause = s.faultCause := rfl
@[simp] theorem incSp_faultInfo (s : State) : s.incSp.faultInfo = s.faultInfo := rfl
@[simp] theorem incSp_mem (s : State) : s.incSp.mem = s.mem := rfl
@[simp] theorem incSp_out (s : State) : s.incSp.out = s.out := rfl
@[simp] theorem incSp_sp (s : State) : s.incSp.sp = s.sp + 1 := by simp [State.incSp, State.sp]

theorem incSp_reg (s : State) (k : Fin 8) : s.incSp.reg k = if k = 7 then s.sp + 1 else s.reg k := by
  simp [State.incSp, reg_setReg, spIndex]

/-! ## `afterReset` -/

@[simp] theorem afterReset_pc (m : Memory) : (State.afterReset m).pc = 0x00 := rfl
@[simp] theorem afterReset_runState (m : Memory) : (State.afterReset m).runState = .running := rfl
@[simp] theorem afterReset_faultCause (m : Memory) : (State.afterReset m).faultCause = .none := rfl
@[simp] theorem afterReset_faultInfo (m : Memory) : (State.afterReset m).faultInfo = 0x00 := rfl
@[simp] theorem afterReset_mem (m : Memory) : (State.afterReset m).mem = m := rfl
@[simp] theorem afterReset_out (m : Memory) : (State.afterReset m).out = [] := rfl
@[simp] theorem afterReset_sp (m : Memory) : (State.afterReset m).sp = 0xF4 := rfl

end Sys2Proof.Machine
end

