-- ==== Sys2Proof/Laws/Memory.lean ====
section
/-! SUPPORT. The laws of one cell, and that every memory operation keeps the canonical form. -/

namespace Sys2Proof.Machine

/-! ## Cells by number -/

theorem lookup_erase (a x : Nat) (m : Memory) :
    Memory.lookup x (Memory.erase a m) = if x = a then Memory.unlisted x else Memory.lookup x m := by
  induction m with
  | nil => simp [Memory.erase, Memory.lookup]
  | cons c m ih =>
    by_cases hc : c.1 = a <;> by_cases hx : x = a <;> by_cases hcx : c.1 = x <;>
      simp_all [Memory.erase, Memory.lookup]

theorem lookup_insert (a x : Nat) (v : Byte) (m : Memory) (h : ∀ c ∈ m, c.1 ≠ a) :
    Memory.lookup x (Memory.insert a v m) = if x = a then v else Memory.lookup x m := by
  induction m with
  | nil =>
    by_cases hx : x = a
    · simp [Memory.insert, Memory.lookup, hx]
    · simp [Memory.insert, Memory.lookup, hx, Ne.symm hx]
  | cons c m ih =>
    have hc := h c (by simp)
    have hm := ih fun d hd => h d (by simp [hd])
    by_cases hlt : a < c.1
    · by_cases hx : x = a
      · simp [Memory.insert, Memory.lookup, hlt, hx]
      · simp [Memory.insert, Memory.lookup, hlt, hx, Ne.symm hx]
    · by_cases hcx : c.1 = x
      · subst hcx
        simp [Memory.insert, Memory.lookup, hlt, hc]
      · simp [Memory.insert, Memory.lookup, hlt, hcx, hm]

theorem erase_keys_ne (a : Nat) (m : Memory) : ∀ c ∈ Memory.erase a m, c.1 ≠ a := by
  induction m with
  | nil => simp [Memory.erase]
  | cons c m ih =>
    by_cases hc : c.1 = a
    · simpa [Memory.erase, hc] using ih
    · intro d hd
      simp only [Memory.erase, hc, if_false, List.mem_cons] at hd
      rcases hd with rfl | hd
      · exact hc
      · exact ih d hd

/-! ## The canonical form -/

theorem wfFrom_mono {lo lo' : Nat} (m : Memory) (h : lo' ≤ lo) (hm : Memory.wfFrom lo m = true) :
    Memory.wfFrom lo' m = true := by
  cases m with
  | nil => rfl
  | cons c m =>
    simp only [Memory.wfFrom, Bool.and_eq_true, decide_eq_true_eq] at hm ⊢
    exact ⟨⟨⟨by omega, hm.1.1.2⟩, hm.1.2⟩, hm.2⟩

theorem wfFrom_erase (a lo : Nat) (m : Memory) (hm : Memory.wfFrom lo m = true) :
    Memory.wfFrom lo (Memory.erase a m) = true := by
  induction m generalizing lo with
  | nil => rfl
  | cons c m ih =>
    simp only [Memory.wfFrom, Bool.and_eq_true, decide_eq_true_eq] at hm
    by_cases hc : c.1 = a
    · simp only [Memory.erase, hc, if_true]
      exact wfFrom_mono _ (by omega) (ih _ hm.2)
    · simp only [Memory.erase, hc, if_false, Memory.wfFrom, Bool.and_eq_true, decide_eq_true_eq]
      exact ⟨hm.1, ih _ hm.2⟩

theorem wfFrom_insert (a lo : Nat) (v : Byte) (m : Memory) (hlo : lo ≤ a) (ha : a < 256)
    (hv : v ≠ Memory.unlisted a) (hne : ∀ c ∈ m, c.1 ≠ a) (hm : Memory.wfFrom lo m = true) :
    Memory.wfFrom lo (Memory.insert a v m) = true := by
  induction m generalizing lo with
  | nil => simp [Memory.insert, Memory.wfFrom, hlo, ha, hv]
  | cons c m ih =>
    have hc := hne c (by simp)
    simp only [Memory.wfFrom, Bool.and_eq_true, decide_eq_true_eq] at hm
    by_cases hlt : a < c.1
    · simp only [Memory.insert, hlt, if_true, Memory.wfFrom, Bool.and_eq_true, decide_eq_true_eq]
      exact ⟨⟨⟨hlo, ha⟩, hv⟩, ⟨⟨by omega, hm.1.1.2⟩, hm.1.2⟩, hm.2⟩
    · simp only [Memory.insert, hlt, if_false, Memory.wfFrom, Bool.and_eq_true, decide_eq_true_eq]
      exact ⟨hm.1, ih _ (by omega) (fun d hd => hne d (by simp [hd])) hm.2⟩

/-- A write keeps the canonical form. -/
theorem wf_write (m : Memory) (a v : Byte) (hm : Memory.wf m = true) : Memory.wf (Memory.write m a v) = true := by
  have he := wfFrom_erase a.toNat 0 m hm
  unfold Memory.write
  split
  · exact he
  · exact wfFrom_insert _ _ _ _ (Nat.zero_le _) a.isLt ‹_› (erase_keys_ne _ _) he

@[simp] theorem wf_nil : Memory.wf [] = true := rfl

/-- Filling cells keeps the canonical form. -/
theorem wf_fill (image : Byte → Byte) (m : Memory) (n : Nat) (hm : Memory.wf m = true) :
    Memory.wf (Memory.fill image m n) = true := by
  induction n with
  | zero => exact hm
  | succ n ih => exact wf_write _ _ _ ih

/-- The memory of an image is in canonical form. -/
theorem wf_ofImage (image : Byte → Byte) : Memory.wf (Memory.ofImage image) = true := wf_fill image [] 256 rfl

/-- An access on the port keeps the canonical form. -/
theorem wf_afterAccess (m : Memory) (x : Option MemAccess) (hm : Memory.wf m = true) :
    Memory.wf (Memory.afterAccess m x) = true := by
  match x with
  | none => exact hm
  | some (.read _) => exact hm
  | some (.write a v) => exact wf_write m a v hm

/-! ## Loads and stores -/

@[simp] theorem load_setReg (s : State) (i : Fin 8) (v x : Byte) : (s.setReg i v).load x = s.load x := rfl
@[simp] theorem load_setPc (s : State) (t x : Byte) : (s.setPc t).load x = s.load x := rfl
@[simp] theorem load_advancePast (s : State) (op x : Byte) : (s.advancePast op).load x = s.load x := rfl
@[simp] theorem load_emit (s : State) (v x : Byte) : (s.emit v).load x = s.load x := rfl
@[simp] theorem load_halt (s : State) (x : Byte) : s.halt.load x = s.load x := rfl
@[simp] theorem load_raise (s : State) (c : FaultCause) (v x : Byte) : (s.raise c v).load x = s.load x := rfl
@[simp] theorem load_decSp (s : State) (x : Byte) : s.decSp.load x = s.load x := rfl
@[simp] theorem load_incSp (s : State) (x : Byte) : s.incSp.load x = s.load x := rfl

end Sys2Proof.Machine
end

