-- ==== Sys2Proof/Laws/Ops.lean ====
section
/-! SUPPORT. What each shared operation can do, said once: operands, the ALU, the stack, the decoder. -/

namespace Sys2Proof.Machine

/-! ## Register-index operands -/

@[simp] theorem regIndex?_ofFin (i : Fin 8) : regIndex? (BitVec.ofNat 8 i.val) = some i := by
  revert i; decide

theorem regIndex?_eq_some_iff (x : Byte) (i : Fin 8) : regIndex? x = some i ↔ x.toNat = i.val := by
  unfold regIndex?
  split <;> simp [Fin.ext_iff]
  omega

theorem regIndex?_eq_none_iff (x : Byte) : regIndex? x = none ↔ 8 ≤ x.toNat := by
  unfold regIndex?
  split <;> simp <;> omega

/-- `withRegister` on a byte that names a register. -/
theorem withRegister_of_index {x : Byte} {i : Fin 8} (h : x.toNat = i.val) (s : State) (act : Fin 8 → Result) :
    withRegister x s act = act i := by
  simp [withRegister, (regIndex?_eq_some_iff x i).2 h]

/-- `withRegister` on a byte that names none. -/
theorem withRegister_of_bad {x : Byte} (h : 8 ≤ x.toNat) (s : State) (act : Fin 8 → Result) :
    withRegister x s act = .next (s.raise .invalidRegister x) := by
  simp [withRegister, (regIndex?_eq_none_iff x).2 h]

/-- All that `withRegister` can answer. -/
theorem withRegister_cases {x : Byte} {s t : State} {act : Fin 8 → Result} (h : withRegister x s act = .next t) :
    (∃ i : Fin 8, x.toNat = i.val ∧ act i = .next t) ∨ (8 ≤ x.toNat ∧ t = s.raise .invalidRegister x) := by
  by_cases hx : x.toNat < 8
  · exact .inl ⟨⟨x.toNat, hx⟩, rfl, by rwa [withRegister_of_index (i := ⟨x.toNat, hx⟩) rfl] at h⟩
  · have hx' : 8 ≤ x.toNat := by omega
    rw [withRegister_of_bad hx'] at h
    exact .inr ⟨hx', (Host.Outcome.next.inj h).symm⟩

/-! ## The ALU -/

theorem narrow_toNat (z : Int) : ((narrow z).toNat : Int) = z % 256 := by
  simp [narrow, BitVec.toNat_ofInt]
  omega

theorem narrow_ofNat (n : Nat) : (narrow (n : Int)).toNat = n % 256 := by
  have := narrow_toNat (n : Int)
  omega

/-- The ALU path on two valid register indices whose values have a result. -/
theorem execAlu_of_result {op : AluOp} {a b r : Byte} {i j : Fin 8} {s : State} (ha : a.toNat = i.val)
    (hb : b.toNat = j.val) (hr : aluEvaluate op (s.reg i) (s.reg j) = some r) (opcode : Byte) :
    execAlu op opcode a b s = .next ((s.setReg i r).advancePast opcode) := by
  rw [execAlu, withRegister_of_index ha, withRegister_of_index hb, hr]

/-- The ALU path on two valid register indices whose values have no result. -/
theorem execAlu_of_no_result {op : AluOp} {a b : Byte} {i j : Fin 8} {s : State} (ha : a.toNat = i.val)
    (hb : b.toNat = j.val) (hr : aluEvaluate op (s.reg i) (s.reg j) = none) (opcode : Byte) :
    execAlu op opcode a b s = .next (s.raise .divisionByZero 0x00) := by
  rw [execAlu, withRegister_of_index ha, withRegister_of_index hb, hr]

/-- All that the ALU path can answer. -/
theorem execAlu_cases {op : AluOp} {opcode a b : Byte} {s t : State} (h : execAlu op opcode a b s = .next t) :
    (8 ≤ a.toNat ∧ t = s.raise .invalidRegister a) ∨
    (a.toNat < 8 ∧ 8 ≤ b.toNat ∧ t = s.raise .invalidRegister b) ∨
    (∃ i j : Fin 8, a.toNat = i.val ∧ b.toNat = j.val ∧ aluEvaluate op (s.reg i) (s.reg j) = none ∧
      t = s.raise .divisionByZero 0x00) ∨
    (∃ (i j : Fin 8) (r : Byte), a.toNat = i.val ∧ b.toNat = j.val ∧ aluEvaluate op (s.reg i) (s.reg j) = some r ∧
      t = (s.setReg i r).advancePast opcode) := by
  rcases withRegister_cases h with ⟨i, ha, h⟩ | h
  · rcases withRegister_cases h with ⟨j, hb, h⟩ | h
    · cases hv : aluEvaluate op (s.reg i) (s.reg j) with
      | none =>
        rw [hv] at h
        exact .inr (.inr (.inl ⟨i, j, ha, hb, hv, (Host.Outcome.next.inj h).symm⟩))
      | some r =>
        rw [hv] at h
        exact .inr (.inr (.inr ⟨i, j, r, ha, hb, hv, (Host.Outcome.next.inj h).symm⟩))
    · exact .inr (.inl ⟨by omega, h⟩)
  · exact .inl h

/-! The four ALU instructions are the ALU path with their operation and opcode. -/

theorem exec_add (a b : Byte) (s : State) : exec (.add a b) s = execAlu .add opAdd a b s := rfl
theorem exec_sub (a b : Byte) (s : State) : exec (.sub a b) s = execAlu .sub opSub a b s := rfl
theorem exec_mul (a b : Byte) (s : State) : exec (.mul a b) s = execAlu .mul opMul a b s := rfl
theorem exec_div (a b : Byte) (s : State) : exec (.div a b) s = execAlu .div opDiv a b s := rfl

/-- Only DIV has operands without a result. -/
theorem aluEvaluate_eq_none_iff (op : AluOp) (va vb : Byte) :
    aluEvaluate op va vb = none ↔ op = .div ∧ vb = 0x00 := by
  cases op <;> simp [aluEvaluate, aluExact, ← BitVec.toNat_inj]

/-! ## The stack -/

@[simp] theorem pushBy_pc (s : State) (f : State → Byte) : (s.pushBy f).pc = s.pc := rfl
@[simp] theorem pushBy_runState (s : State) (f : State → Byte) : (s.pushBy f).runState = s.runState := rfl
@[simp] theorem pushBy_faultCause (s : State) (f : State → Byte) : (s.pushBy f).faultCause = s.faultCause := rfl
@[simp] theorem pushBy_faultInfo (s : State) (f : State → Byte) : (s.pushBy f).faultInfo = s.faultInfo := rfl
@[simp] theorem pushBy_out (s : State) (f : State → Byte) : (s.pushBy f).out = s.out := rfl
@[simp] theorem pushBy_reg (s : State) (f : State → Byte) (k : Fin 8) : (s.pushBy f).reg k = s.decSp.reg k := rfl

theorem pushBy_mem (s : State) (f : State → Byte) :
    (s.pushBy f).mem = Memory.write s.mem (s.sp - 1) (f s.decSp) := by
  simp [State.pushBy]

/-! ## The decoder -/

/-- Each opcode byte has the operand count of its format (R50, R56). -/
theorem operandCount_opcodes :
    operandCount opHlt = 0 ∧ operandCount opRet = 0 ∧ operandCount opPush = 1 ∧ operandCount opPop = 1 ∧
    operandCount opPrn = 1 ∧ operandCount opCall = 1 ∧ operandCount opJmp = 1 ∧ operandCount opLdi = 2 ∧
    operandCount opAdd = 2 ∧ operandCount opSub = 2 ∧ operandCount opMul = 2 ∧ operandCount opDiv = 2 := by decide

/-- The operand that DECODE finds bad, if there is none, leaves the instruction well formed. -/
theorem firstBadOperand_eq_none_iff (i : Instr) : i.firstBadOperand = none ↔ i.wellFormed = true := by
  simp [Instr.firstBadOperand, Instr.wellFormed]

/-! ## The step -/

theorem step_of_halted {s : State} (h : s.runState = .halted) : step s = .next s := by simp [step, h]

theorem step_of_faulted {s : State} (h : s.runState = .faulted) : step s = .next s := by simp [step, h]

theorem step_of_rejected {s : State} {r : Reject} (h : s.runState = .running) (hd : s.fetch.decode = .error r) :
    step s = .next (s.raiseReject r) := by simp [step, h, hd]

end Sys2Proof.Machine
end

