-- ==== Sys2Proof/Laws/PerInstr.lean ====
section
/-! SUPPORT. Facts about every instruction as syntax, one lemma per constructor. -/

namespace Sys2Proof.Laws.Format

/-- The number of bytes of an instruction is one more than the operand count in bits 7:6 of its opcode, and bit 5 of the opcode
is set exactly for the four ALU instructions (R50, R51, R57). -/
def Statement (i : Instr) : Prop :=
  (encode i).length = 1 + operandCount i.opcode ∧
    (isAluOp i.opcode = true ↔ i.opcode ∈ [opAdd, opSub, opMul, opDiv])

theorem hlt : Statement .hlt := ⟨rfl, by decide⟩
theorem ret : Statement .ret := ⟨rfl, by decide⟩
theorem push (a : Byte) : Statement (.push a) := by simp [Statement, encode, Instr.opcode, Instr.operands, isAluOp]; decide
theorem pop (a : Byte) : Statement (.pop a) := by simp [Statement, encode, Instr.opcode, Instr.operands, isAluOp]; decide
theorem prn (a : Byte) : Statement (.prn a) := by simp [Statement, encode, Instr.opcode, Instr.operands, isAluOp]; decide
theorem call (a : Byte) : Statement (.call a) := by simp [Statement, encode, Instr.opcode, Instr.operands, isAluOp]; decide
theorem jmp (a : Byte) : Statement (.jmp a) := by simp [Statement, encode, Instr.opcode, Instr.operands, isAluOp]; decide
theorem ldi (a imm : Byte) : Statement (.ldi a imm) := by simp [Statement, encode, Instr.opcode, Instr.operands, isAluOp]; decide
theorem add (a b : Byte) : Statement (.add a b) := by simp [Statement, encode, Instr.opcode, Instr.operands, isAluOp]; decide
theorem sub (a b : Byte) : Statement (.sub a b) := by simp [Statement, encode, Instr.opcode, Instr.operands, isAluOp]; decide
theorem mul (a b : Byte) : Statement (.mul a b) := by simp [Statement, encode, Instr.opcode, Instr.operands, isAluOp]; decide
theorem div (a b : Byte) : Statement (.div a b) := by simp [Statement, encode, Instr.opcode, Instr.operands, isAluOp]; decide

end Sys2Proof.Laws.Format
end

