-- ==== Sys2Proof/Tests/Slice0.lean ====
section
/-! SUPPORT. The model's own tests. Expected results are the vectors V<n> and programs P<n> of spec/95_test_vectors.md unless a comment
says otherwise. The second half shows, for each statement with hypotheses, a state and operands that meet them. -/

namespace Sys2Proof.Tests

open Sys2Proof.Machine

/-! ## Helpers -/

/-- The reset state with bytes written from `a` on. -/
def put (s : State) (a : Byte) : List Byte → State
  | [] => s
  | v :: vs => put (s.store a v) (a + 1) vs

/-- Registers set one after another. -/
def setAll (s : State) : List (Fin 8 × Byte) → State
  | [] => s
  | (i, v) :: rest => setAll (s.setReg i v) rest

/-- Reset, then `bytes` at `pc`, `pc` there, and registers set. -/
def start (pc : Byte) (bytes : List Byte) (regs : List (Fin 8 × Byte)) : State :=
  setAll ((put State.reset pc bytes).setPc pc) regs

/-- The state a result answers. -/
def stateOf (s : State) : Result → State
  | .next t => t
  | .fault _ => s
  | .refused _ => s

/-- The state after one step. -/
def after (s : State) : State := stateOf s (step s)

/-- What the status ports show. -/
def status (s : State) : RunState × FaultCause × Byte := (s.runState, s.faultCause, s.faultInfo)

/-! ## WellFormed: an ill-formed term for each check -/

theorem test_wellFormed_refuses_push : (Instr.push 8).wellFormed = false := by decide
theorem test_wellFormed_refuses_pop : (Instr.pop 8).wellFormed = false := by decide
theorem test_wellFormed_refuses_prn : (Instr.prn 0x10).wellFormed = false := by decide
theorem test_wellFormed_refuses_call : (Instr.call 8).wellFormed = false := by decide
theorem test_wellFormed_refuses_jmp : (Instr.jmp 0xFF).wellFormed = false := by decide
theorem test_wellFormed_refuses_ldi : (Instr.ldi 8 1).wellFormed = false := by decide
theorem test_wellFormed_refuses_add_a : (Instr.add 8 0).wellFormed = false := by decide
theorem test_wellFormed_refuses_sub_b : (Instr.sub 0 0xFF).wellFormed = false := by decide
theorem test_wellFormed_refuses_mul_b : (Instr.mul 7 8).wellFormed = false := by decide
theorem test_wellFormed_refuses_div_a : (Instr.div 9 1).wellFormed = false := by decide
theorem test_wellFormed_accepts :
    (Instr.ldi 7 0xFF).wellFormed = true ∧ (Instr.add 7 7).wellFormed = true ∧ Instr.hlt.wellFormed = true := by decide

/-! ## Decode: words written out from R56 -/

theorem test_decode_hlt : decode 0b00000001 0xAA 0xBB = .ok .hlt := by rfl
theorem test_decode_ret : decode 0b00010001 0xAA 0xBB = .ok .ret := by rfl
theorem test_decode_push : decode 0b01000101 2 0xBB = .ok (.push 2) := by rfl
theorem test_decode_pop : decode 0b01000110 3 0xBB = .ok (.pop 3) := by rfl
theorem test_decode_prn : decode 0b01000111 7 0xBB = .ok (.prn 7) := by rfl
theorem test_decode_call : decode 0b01010000 1 0xBB = .ok (.call 1) := by rfl
theorem test_decode_jmp : decode 0b01010100 2 0xBB = .ok (.jmp 2) := by rfl
theorem test_decode_ldi : decode 0b10000010 0 8 = .ok (.ldi 0 8) := by rfl
theorem test_decode_add : decode 0b10100000 0 1 = .ok (.add 0 1) := by rfl
theorem test_decode_sub : decode 0b10100001 2 3 = .ok (.sub 2 3) := by rfl
theorem test_decode_mul : decode 0b10100010 4 5 = .ok (.mul 4 5) := by rfl
theorem test_decode_div : decode 0b10100011 6 7 = .ok (.div 6 7) := by rfl
/-- V50, V51, V54, V55, V24. -/
theorem test_decode_rejects :
    decode 0x00 0 0 = .error (.unknownOpcode 0x00) ∧ decode 0xDF 0 0 = .error (.unknownOpcode 0xDF) ∧
    decode 0x20 0 0 = .error (.unsupportedAluOperation 0x20) ∧ decode 0x65 0 0 = .error (.unsupportedAluOperation 0x65) ∧
    decode 0xA8 0 1 = .error (.unsupportedAluOperation 0xA8) := ⟨rfl, rfl, rfl, rfl, rfl⟩
/-- Section 2.6 of the vectors. -/
theorem test_decoder_outputs :
    decoder 0x45 = ⟨1, false, 0x45⟩ ∧ decoder 0xA3 = ⟨2, true, 0xA3⟩ ∧ decoder 0xDF = ⟨3, false, 0xDF⟩ ∧
    decoder 0xFF = ⟨3, true, 0xFF⟩ := by decide

/-! ## Steps -/

/-- V2. -/
theorem test_add_wraps :
    (after (start 0x10 [0xA0, 0, 1] [(0, 0xC8), (1, 0x64)])).reg 0 = 0x2C ∧
    (after (start 0x10 [0xA0, 0, 1] [(0, 0xC8), (1, 0x64)])).pc = 0x13 := by decide
/-- V22. -/
theorem test_add_reports_operand_a_first :
    status (after (start 0x10 [0xA0, 9, 0x0A] [])) = (.faulted, .invalidRegister, 9) := by decide
/-- V7. -/
theorem test_sub_wraps : (after (start 0x10 [0xA1, 0, 1] [(0, 0x2C), (1, 0x64)])).reg 0 = 0xC8 := by decide
/-- The example of R92. -/
theorem test_sub_subtracts_b_from_a : (after (start 0x10 [0xA1, 2, 3] [(2, 5), (3, 7)])).reg 2 = 0xFE := by decide
/-- V15c. -/
theorem test_mul_keeps_low_byte : (after (start 0x10 [0xA2, 0, 1] [(0, 0x14), (1, 0x0D)])).reg 0 = 4 := by decide
/-- V10. -/
theorem test_mul_largest : (after (start 0x10 [0xA2, 0, 1] [(0, 0xFF), (1, 0xFF)])).reg 0 = 1 := by decide
/-- V13. -/
theorem test_div_floors : (after (start 0x10 [0xA3, 0, 1] [(0, 0x11), (1, 5)])).reg 0 = 3 := by decide
/-- V16 and V21. -/
theorem test_div_faults :
    status (after (start 0x10 [0xA3, 0, 1] [(0, 7)])) = (.faulted, .divisionByZero, 0) ∧
    status (after (start 0x10 [0xA3, 9, 1] [])) = (.faulted, .invalidRegister, 9) ∧
    (after (start 0x10 [0xA3, 0, 1] [(0, 7)])).reg 0 = 7 := by decide
/-- V27b: HLT at the last address. -/
theorem test_hlt_at_top :
    (after (start 0xFF [0x01] [])).runState = .halted ∧ (after (start 0xFF [0x01] [])).pc = 0xFF := by decide
/-- V28c: 8 is an immediate. -/
theorem test_ldi_immediate_is_not_an_index : (after (start 0x10 [0x82, 1, 8] [])).reg 1 = 8 := by decide
/-- V61: operand_b from address 0. -/
theorem test_ldi_operand_wraps :
    (after (start 0xFE [0x82, 3, 0x82] [])).reg 3 = 0x82 ∧ (after (start 0xFE [0x82, 3, 0x82] [])).pc = 0x01 := by decide
/-- V29b. -/
theorem test_prn_stack_pointer : (after (start 0x10 [0x47, 7] [])).out = [244] := by decide
/-- V29d. -/
theorem test_prn_index_is_not_masked :
    status (after (start 0x10 [0x47, 0x10] [])) = (.faulted, .invalidRegister, 0x10) := by decide
/-- V32. -/
theorem test_push_wraps :
    (after (start 0x10 [0x45, 0] [(0, 0xAB), (7, 0)])).load 0xFF = 0xAB ∧
    (after (start 0x10 [0x45, 0] [(0, 0xAB), (7, 0)])).sp = 0xFF := by decide
/-- V36. -/
theorem test_push_r7 : (after (start 0x10 [0x45, 7] [])).load 0xF3 = 0xF3 := by decide
/-- V31. -/
theorem test_pop :
    (after ((start 0x10 [0x46, 3] [(7, 0xF3)]).store 0xF3 0x5A)).reg 3 = 0x5A ∧
    (after ((start 0x10 [0x46, 3] [(7, 0xF3)]).store 0xF3 0x5A)).sp = 0xF4 := by decide
/-- V37. -/
theorem test_pop_r7 : (after ((start 0x10 [0x46, 7] []).store 0xF4 0x40)).sp = 0x41 := by decide
/-- V43: the operand from the wrapped address. -/
theorem test_call_across_the_top :
    (after (start 0xFF [0x50, 2] [(2, 0x20)])).pc = 0x20 ∧
    (after (start 0xFF [0x50, 2] [(2, 0x20)])).load 0xF3 = 0x01 := by decide
/-- V44. -/
theorem test_call_r7 : (after (start 0x10 [0x50, 7] [])).pc = 0xF3 := by decide
/-- V46. -/
theorem test_ret_wraps :
    (after ((start 0x10 [0x11] [(7, 0xFF)]).store 0xFF 0x44)).pc = 0x44 ∧
    (after ((start 0x10 [0x11] [(7, 0xFF)]).store 0xFF 0x44)).sp = 0x00 := by decide
/-- V45 and V49. -/
theorem test_jmp :
    (after (start 0x10 [0x54, 2] [(2, 0x80)])).pc = 0x80 ∧
    status (after (start 0x10 [0x54, 0xFF] [])) = (.faulted, .invalidRegister, 0xFF) := by decide
/-- P8: the empty program. -/
theorem test_reset_runs_into_unknown_opcode :
    status (after State.reset) = (.faulted, .unknownOpcode, 0) ∧ (after State.reset).pc = 0 := by decide
/-- V71. -/
theorem test_faulted_is_terminal : after (after State.reset) = after State.reset := by decide
/-- The host's placing of a word: LDI R0,8 of R101. -/
theorem test_withFetchWord_runs_it : (after (State.reset.withFetchWord 24 0x080082)).reg 0 = 8 := by decide

/-! ## Environment and FSM -/

/-- Lines in the format of R62; the bytes of S1. -/
theorem test_listing_bytes :
    listingBytes? ["10000010 # LDI R0,8".toList, "00000000".toList, "".toList, "# comment".toList, "00001000".toList] =
      some [0x82, 0x00, 0x08] := by decide
theorem test_listing_rejects_seven_digits : listingBytes? ["1000001".toList] = none := by decide
/-- The line of R61. -/
theorem test_listing_notation : listing (.ldi 0 8) = "LDI R0,8".toList := by decide
/-- V29: 255, never -1; and the example of R103. -/
theorem test_render : renderOut [255, 8, 0] = ["255".toList, "8".toList, "0".toList] := by decide
/-- R81: LDI takes the five phases and ends in FETCH0 with the effect done. -/
theorem test_fsm_ldi :
    (Fsm.run 5 ⟨start 0x10 [0x82, 3, 0xAB] [], .fetch0, 0, 0, 0⟩).arch.reg 3 = 0xAB ∧
    (Fsm.run 5 ⟨start 0x10 [0x82, 3, 0xAB] [], .fetch0, 0, 0, 0⟩).phase = .fetch0 := by decide
/-- R82, R83: PUSH writes in EXECUTE (V30). -/
theorem test_fsm_push_port :
    (Fsm.run 4 ⟨start 0x10 [0x45, 2] [(2, 0x5A)], .fetch0, 0, 0, 0⟩).access = some (.write 0xF3 0x5A) := by decide
/-- R150. -/
theorem test_trace :
    (trace (start 0xFE [0x82, 3, 0x82] [])).bytes = ⟨0x82, 3, 0x82⟩ ∧
    (trace (start 0xFE [0x82, 3, 0x82] [])).regs.toList = [0, 0, 0, 0, 0, 0, 0, 0xF4] := by decide

/-! ## Witnesses: the hypotheses of each statement can be met

One theorem for each statement with hypotheses, named after it, with a case for each clause and at the edges of its range. -/

/-! ### Operands -/

theorem witness_AddWritesSumModulo256 :
    8 ≤ (0x08 : Byte).toNat ∧ ((0x07 : Byte).toNat < 8 ∧ 8 ≤ (0xFF : Byte).toNat) ∧
    ((0x07 : Byte).toNat = (7 : Fin 8).val ∧ (0x00 : Byte).toNat = (0 : Fin 8).val) := by decide
theorem witness_SubWritesDifferenceModulo256 :
    8 ≤ (0xFF : Byte).toNat ∧ ((0x00 : Byte).toNat < 8 ∧ 8 ≤ (0x08 : Byte).toNat) ∧
    ((0x00 : Byte).toNat = (0 : Fin 8).val ∧ (0x07 : Byte).toNat = (7 : Fin 8).val) := by decide
theorem witness_MulWritesProductModulo256 :
    8 ≤ (0x08 : Byte).toNat ∧ ((0x07 : Byte).toNat < 8 ∧ 8 ≤ (0x08 : Byte).toNat) ∧
    ((0x07 : Byte).toNat = (7 : Fin 8).val ∧ (0x07 : Byte).toNat = (7 : Fin 8).val) := by decide
/-- With the divisor register 0, and not 0. -/
theorem witness_DivWritesQuotientOrFaults :
    8 ≤ (0x08 : Byte).toNat ∧ ((0x07 : Byte).toNat < 8 ∧ 8 ≤ (0x08 : Byte).toNat) ∧
    ((0x07 : Byte).toNat = (7 : Fin 8).val ∧ (0x00 : Byte).toNat = (0 : Fin 8).val ∧ State.reset.reg 0 = 0x00) ∧
    ((0x00 : Byte).toNat = (0 : Fin 8).val ∧ (0x07 : Byte).toNat = (7 : Fin 8).val ∧ State.reset.reg 7 ≠ 0x00) := by decide
/-- A step to Halted. -/
theorem witness_HltHaltsAndChangesNothingElse :
    (start 0xFF [0x01] []).runState = .running ∧ step (start 0xFF [0x01] []) = .next (after (start 0xFF [0x01] [])) ∧
    (after (start 0xFF [0x01] [])).runState = .halted := ⟨rfl, rfl, by decide⟩
theorem witness_LdiLoadsTheImmediate :
    8 ≤ (0x08 : Byte).toNat ∧ 8 ≤ (0xFF : Byte).toNat ∧ (0x07 : Byte).toNat = (7 : Fin 8).val := by decide
theorem witness_PrnAppendsTheRegister :
    8 ≤ (0x10 : Byte).toNat ∧ 8 ≤ (0x08 : Byte).toNat ∧ (0x07 : Byte).toNat = (7 : Fin 8).val ∧
    (∀ x : Byte, Instr.push 0 ≠ .prn x) ∧
    exec (.push 0) State.reset = .next (stateOf State.reset (exec (.push 0) State.reset)) :=
  ⟨by decide, by decide, rfl, by simp, rfl⟩
/-- Register 7 and another; a cell other than the one stored to. -/
theorem witness_PushStoresBelowTheStackPointer :
    8 ≤ (0x08 : Byte).toNat ∧ (0x07 : Byte).toNat = (7 : Fin 8).val ∧ (0x06 : Byte).toNat = (6 : Fin 8).val ∧
    (6 : Fin 8) ≠ 7 ∧ (0xF4 : Byte) ≠ State.reset.decSp.sp := by decide
theorem witness_PopLoadsFromTheStackPointer :
    8 ≤ (0x08 : Byte).toNat ∧ ((0x06 : Byte).toNat = (6 : Fin 8).val ∧ (6 : Fin 8) ≠ 7) ∧
    (0x07 : Byte).toNat = (7 : Fin 8).val := by decide
theorem witness_CallPushesReturnAddressAndJumps :
    8 ≤ (0x08 : Byte).toNat ∧ (0x07 : Byte).toNat = (7 : Fin 8).val ∧ (0x00 : Byte).toNat = (0 : Fin 8).val ∧
    (0xF2 : Byte) ≠ State.reset.decSp.sp := by decide
theorem witness_JmpReplacesOnlyThePc :
    8 ≤ (0x08 : Byte).toNat ∧ 8 ≤ (0xFF : Byte).toNat ∧ (0x07 : Byte).toNat = (7 : Fin 8).val := by decide

/-- A register that is not 0 and one that is. -/
theorem witness_AluReadsBothOperandsBeforeWriting :
    ((0x07 : Byte).toNat = (7 : Fin 8).val ∧ State.reset.reg 7 ≠ 0x00) ∧
    ((0x00 : Byte).toNat = (0 : Fin 8).val ∧ State.reset.reg 0 = 0x00) := by decide
/-- Exact results of 255 and of 0: the edges of the exact case. -/
theorem witness_ArithmeticLawExactInRange :
    (0x00 : Byte).toNat = (0 : Fin 8).val ∧ (0x01 : Byte).toNat = (1 : Fin 8).val ∧
    ((start 0 [] [(0, 0x0F), (1, 0x11)]).reg 0).toNat * ((start 0 [] [(0, 0x0F), (1, 0x11)]).reg 1).toNat = 255 ∧
    ((start 0 [] [(0, 0xFE), (1, 0x01)]).reg 0).toNat + ((start 0 [] [(0, 0xFE), (1, 0x01)]).reg 1).toNat = 255 ∧
    ((start 0 [] [(0, 0xC8), (1, 0xC8)]).reg 1).toNat ≤ ((start 0 [] [(0, 0xC8), (1, 0xC8)]).reg 0).toNat := by decide
/-- The stack pointer at both ends, with register 7 and another as the operand. -/
theorem witness_StackPointerWrapsWithoutFault :
    (0x07 : Byte).toNat = (7 : Fin 8).val ∧ ((0x00 : Byte).toNat = (0 : Fin 8).val ∧ (0 : Fin 8) ≠ 7) ∧
    ((start 0 [] [(7, 0x00)]).runState = .running ∧ (start 0 [] [(7, 0x00)]).sp = 0x00) ∧
    ((start 0 [] [(7, 0xFF)]).runState = .running ∧ (start 0 [] [(7, 0xFF)]).sp = 0xFF) := by decide
theorem witness_PushThenPopRestores :
    (0x00 : Byte).toNat = (0 : Fin 8).val ∧ (0x06 : Byte).toNat = (6 : Fin 8).val ∧ (0 : Fin 8) ≠ 7 ∧ (6 : Fin 8) ≠ 7 ∧
    (0xF4 : Byte) ≠ State.reset.decSp.sp := by decide
/-- The subroutine that does nothing, and one that changed a register. -/
theorem witness_ReturnComesBackAfterTheCall :
    (0x06 : Byte).toNat = (6 : Fin 8).val ∧ (6 : Fin 8) ≠ 7 ∧
    ((after (start 0x10 [0x50, 6] [(6, 0x40)])).setReg 0 9).sp = (after (start 0x10 [0x50, 6] [(6, 0x40)])).sp ∧
    ((after (start 0x10 [0x50, 6] [(6, 0x40)])).setReg 0 9).load 0xF3 =
      (after (start 0x10 [0x50, 6] [(6, 0x40)])).load 0xF3 := by decide
/-- A push onto the next opcode, and a push onto its own opcode byte, by another register and by register 7. -/
theorem witness_StoredByteIsFetchedNext :
    ((start 0x10 [0x45, 0] [(7, 0x13)]).fetch.decode = .ok (.push 0) ∧
      (start 0x10 [0x45, 0] [(7, 0x13)]).decSp.sp = (start 0x10 [0x45, 0] [(7, 0x13)]).pc + 2) ∧
    ((start 0x10 [0x45, 7] [(7, 0x11)]).fetch.decode = .ok (.push 7) ∧
      (start 0x10 [0x45, 7] [(7, 0x11)]).decSp.sp = (start 0x10 [0x45, 7] [(7, 0x11)]).pc) ∧
    (start 0x10 [0x45, 0] [(7, 0x13)]).runState = .running ∧ (start 0x10 [0x45, 7] [(7, 0x11)]).runState = .running ∧
    (0x00 : Byte).toNat = (0 : Fin 8).val ∧ (0x07 : Byte).toNat = (7 : Fin 8).val :=
  ⟨⟨rfl, by decide⟩, ⟨rfl, by decide⟩, rfl, rfl, rfl, rfl⟩
theorem witness_JumpToItselfNeverEnds :
    (0x07 : Byte).toNat = (7 : Fin 8).val ∧ (start 0xF4 [0x54, 7] []).runState = .running ∧
    (start 0xF4 [0x54, 7] []).fetch.decode = .ok (.jmp 7) ∧
    (start 0xF4 [0x54, 7] []).reg 7 = (start 0xF4 [0x54, 7] []).pc := ⟨rfl, rfl, rfl, rfl⟩

/-! ### Memory -/

theorem witness_StoreChangesOnlyItsCell : (0x00 : Byte) ≠ 0xFF := by decide
/-- Two canonical memories that read alike: one cell written twice in two orders. -/
theorem witness_CanonicalMemoriesAreDeterminedByReads :
    Memory.wf (Memory.write (Memory.write [] 0xFF 1) 0x00 2) = true ∧
    Memory.wf (Memory.write (Memory.write [] 0x00 2) 0xFF 1) = true ∧
    ∀ a : Byte, Memory.read (Memory.write (Memory.write [] 0xFF 1) 0x00 2) a =
      Memory.read (Memory.write (Memory.write [] 0x00 2) 0xFF 1) a := by decide
theorem witness_ExecutionMatchesThePorts :
    exec (.push 0) State.reset = .next (stateOf State.reset (exec (.push 0) State.reset)) ∧
    dataAccess (.push 0) State.reset = some (.write 0xF3 0) ∧
    exec (.prn 7) State.reset = .next (stateOf State.reset (exec (.prn 7) State.reset)) ∧
    emitted (.prn 7) State.reset = some 0xF4 := ⟨rfl, rfl, rfl, rfl⟩

/-! ### Fetch, decode, step -/

theorem witness_FetchReadsThreeBytesAndChangesNothing :
    (⟨start 0xFF [0x01] [], .fetch0, 0, 0, 0⟩ : Fsm).phase = .fetch0 := rfl
/-- A byte of each fault, the nearest to a legal one. -/
theorem witness_OpcodeTableIsClosed :
    ((0xA4 : Byte) ∉ aluBytes ∧ (0xA4 : Byte).getLsbD 5 = true) ∧
    ((0x83 : Byte) ∉ handlerBytes ∧ (0x83 : Byte).getLsbD 5 = false) ∧
    ((0xDF : Byte) ∉ aluBytes ∧ (0xDF : Byte) ∉ handlerBytes ∧ (start 0x10 [0xDF, 9, 9] []).runState = .running ∧
      (start 0x10 [0xDF, 9, 9] []).fetch = ⟨0xDF, 9, 9⟩) := by decide
theorem witness_DecoderSplitsTheOpcodeByte : (0xC0 : Byte).toNat / 64 = 3 ∧ (0xFF : Byte).toNat / 64 = 3 := by decide
/-- Both sides of the equivalence, across the top of memory. -/
theorem witness_DecodeInvertsEncodeInMemory :
    (start 0xFE [0x82, 3, 0x82] []).fetch.decode = .ok (.ldi 3 0x82) ∧
    (start 0xFE [0x82, 3, 0x82] []).load 0xFE = 0x82 ∧ (start 0xFE [0x82, 3, 0x82] []).load 0xFF = 3 ∧
    (start 0xFE [0x82, 3, 0x82] []).load 0x00 = 0x82 := ⟨rfl, by decide, by decide, by decide⟩
theorem witness_UnusedOperandBytesAreIgnored :
    (0x3F : Byte).toNat / 64 = 0 ∧ (0x40 : Byte).toNat / 64 = 1 ∧ (0x11 : Byte).toNat / 64 = 0 ∧
    (0x45 : Byte).toNat / 64 = 1 := by decide
theorem witness_StepRunsTheDecodedInstruction :
    (start 0xFF [0x50, 2] [(2, 0x20)]).runState = .running ∧
    (start 0xFF [0x50, 2] [(2, 0x20)]).fetch.decode = .ok (.call 2) := ⟨rfl, rfl⟩
theorem witness_StepRunsTheEncodedInstruction :
    (start 0xFF [0x50, 2] [(2, 0x20)]).runState = .running ∧
    ∀ (k : Nat) (v : Byte), (encode (.call 2))[k]? = some v →
      (start 0xFF [0x50, 2] [(2, 0x20)]).load ((start 0xFF [0x50, 2] [(2, 0x20)]).pc + BitVec.ofNat 8 k) = v := by
  refine ⟨rfl, fun k v h => ?_⟩
  match k, h with
  | 0, h => cases h; decide
  | 1, h => cases h; decide
  | _ + 2, h => cases h
theorem witness_PlacedWordRunsNext : decodeTableWord 24 0x080082 = some (.ldi 0 8) := by rfl
/-- An advance and a fault. -/
theorem witness_GenericAdvanceFollowsOperandCount :
    ((start 0xFE [0x82, 3, 0x82] []).runState = .running ∧
      step (start 0xFE [0x82, 3, 0x82] []) = .next (after (start 0xFE [0x82, 3, 0x82] [])) ∧
      (start 0xFE [0x82, 3, 0x82] []).fetch.ir ∉ [0x01, 0x11, 0x50, 0x54] ∧
      (after (start 0xFE [0x82, 3, 0x82] [])).runState ≠ .faulted) ∧
    (step State.reset = .next (after State.reset) ∧ State.reset.fetch.ir ∉ [0x01, 0x11, 0x50, 0x54] ∧
      (after State.reset).runState = .faulted) :=
  ⟨⟨rfl, rfl, by decide, by decide⟩, rfl, by decide, by decide⟩
/-- Two states that differ in a register PUSH R0 does not read. -/
theorem witness_RegistersReadAndWrittenAreThoseListed :
    exec (.push 0) State.reset = .next (stateOf State.reset (exec (.push 0) State.reset)) ∧
    exec (.push 0) (State.reset.setReg 3 9) =
      .next (stateOf State.reset (exec (.push 0) (State.reset.setReg 3 9))) ∧
    (State.reset.setReg 3 9).pc = State.reset.pc ∧ (State.reset.setReg 3 9).mem = State.reset.mem ∧
    (State.reset.setReg 3 9).out = State.reset.out ∧ SameStatus State.reset (State.reset.setReg 3 9) ∧
    (∀ k ∈ registersRead (.push 0), State.reset.reg k = (State.reset.setReg 3 9).reg k) :=
  ⟨rfl, rfl, rfl, rfl, rfl, ⟨rfl, rfl, rfl⟩, by decide⟩
/-- A step that emits a byte, and a run of one step. -/
theorem witness_OutputIsAppendOnlyAndUnread :
    step (start 0x10 [0x47, 7] []) = .next (after (start 0x10 [0x47, 7] [])) ∧
    (after (start 0x10 [0x47, 7] [])).out ≠ (start 0x10 [0x47, 7] []).out ∧
    Sys2Proof.core.run 1 (start 0x10 [0x47, 7] []) = .next (after (start 0x10 [0x47, 7] [])) := ⟨rfl, by decide, rfl⟩

/-! ### Faults and the end of a run -/

theorem witness_IllegalOpcodesFault :
    ((start 0x10 [0xA4] []).runState = .running ∧ step (start 0x10 [0xA4] []) = .next (after (start 0x10 [0xA4] [])) ∧
      (start 0x10 [0xA4] []).fetch.ir.getLsbD 5 = true ∧ (start 0x10 [0xA4] []).fetch.ir ∉ aluBytes) ∧
    ((start 0x10 [0x83] []).runState = .running ∧ step (start 0x10 [0x83] []) = .next (after (start 0x10 [0x83] [])) ∧
      (start 0x10 [0x83] []).fetch.ir.getLsbD 5 = false ∧ (start 0x10 [0x83] []).fetch.ir ∉ handlerBytes) :=
  ⟨⟨rfl, rfl, by decide, by decide⟩, rfl, rfl, by decide, by decide⟩
theorem witness_InvalidRegisterIsRaisedOnWholeBytes :
    (step (start 0x10 [0x82, 8, 0] []) = .next (after (start 0x10 [0x82, 8, 0] [])) ∧
      (start 0x10 [0x82, 8, 0] []).fetch.ir ∈ indexingBytes ∧ 8 ≤ (start 0x10 [0x82, 8, 0] []).fetch.opa.toNat) ∧
    (step (start 0x10 [0xA0, 7, 8] []) = .next (after (start 0x10 [0xA0, 7, 8] [])) ∧
      (start 0x10 [0xA0, 7, 8] []).fetch.ir ∈ aluBytes ∧ (start 0x10 [0xA0, 7, 8] []).fetch.opa.toNat < 8 ∧
      8 ≤ (start 0x10 [0xA0, 7, 8] []).fetch.opb.toNat) ∧
    (start 0x10 [0x82, 8, 0] []).runState = .running ∧ (start 0x10 [0xA0, 7, 8] []).runState = .running :=
  ⟨⟨rfl, by decide⟩, ⟨rfl, by decide⟩, rfl, rfl⟩
theorem witness_DivisionByZeroIsRaisedOnlyByDiv :
    (start 0x10 [0xA3, 7, 0] []).runState = .running ∧
    step (start 0x10 [0xA3, 7, 0] []) = .next (after (start 0x10 [0xA3, 7, 0] [])) ∧
    (after (start 0x10 [0xA3, 7, 0] [])).runState = .faulted ∧
    (after (start 0x10 [0xA3, 7, 0] [])).faultCause = .divisionByZero := ⟨rfl, rfl, by decide, by decide⟩
/-- A PUSH with the stack pointer at 0 and a step at the last address: the cases in which an address wraps. -/
theorem witness_OutOfBoundsIsNeverRaised :
    ((start 0x10 [0x45, 0] [(7, 0)]).runState = .running ∧
      step (start 0x10 [0x45, 0] [(7, 0)]) = .next (after (start 0x10 [0x45, 0] [(7, 0)]))) ∧
    ((start 0xFF [0x50, 2] []).runState = .running ∧
      step (start 0xFF [0x50, 2] []) = .next (after (start 0xFF [0x50, 2] []))) := ⟨⟨rfl, rfl⟩, rfl, rfl⟩
/-- One state for each branch of the chain, the last without a fault. -/
theorem witness_FaultPriorityIsTheOrderOfChecks :
    (step (start 0x10 [0xDF, 9, 9] []) = .next (after (start 0x10 [0xDF, 9, 9] [])) ∧
      (start 0x10 [0xDF, 9, 9] []).fetch.ir ∉ aluBytes ∧ (start 0x10 [0xDF, 9, 9] []).fetch.ir ∉ handlerBytes) ∧
    (step (start 0x10 [0xA3, 8, 9] []) = .next (after (start 0x10 [0xA3, 8, 9] [])) ∧
      (start 0x10 [0xA3, 8, 9] []).fetch.ir ∈ indexingBytes ∧ 8 ≤ (start 0x10 [0xA3, 8, 9] []).fetch.opa.toNat) ∧
    (step (start 0x10 [0xA3, 7, 8] []) = .next (after (start 0x10 [0xA3, 7, 8] [])) ∧
      (start 0x10 [0xA3, 7, 8] []).fetch.ir ∈ aluBytes ∧ 8 ≤ (start 0x10 [0xA3, 7, 8] []).fetch.opb.toNat) ∧
    (step (start 0x10 [0xA3, 7, 0] []) = .next (after (start 0x10 [0xA3, 7, 0] [])) ∧
      (start 0x10 [0xA3, 7, 0] []).reg 0 = 0x00) ∧
    (step (start 0x10 [0xA3, 7, 7] []) = .next (after (start 0x10 [0xA3, 7, 7] [])) ∧
      (start 0x10 [0xA3, 7, 7] []).reg 7 ≠ 0x00) ∧
    (start 0x10 [0xA3, 7, 7] []).runState = .running :=
  ⟨⟨rfl, by decide⟩, ⟨rfl, by decide⟩, ⟨rfl, by decide⟩, ⟨rfl, by decide⟩, ⟨rfl, by decide⟩, rfl⟩
theorem witness_FaultsArePrecise :
    State.reset.runState = .running ∧ step State.reset = .next (after State.reset) ∧
    (after State.reset).runState = .faulted := ⟨rfl, rfl, by decide⟩
theorem witness_EndStatesAreTerminal :
    (after State.reset).runState ≠ .running ∧ (after (start 0xFF [0x01] [])).runState ≠ .running ∧
    (⟨after State.reset, .faulted, 0, 0, 0⟩ : Fsm).phase = .faulted := by decide
/-- A Running machine, and a run that is still Running after one step. -/
theorem witness_EveryStepHasANextState :
    (start 0x10 [0x47, 7] []).runState = .running ∧ 0 ≤ 1 ∧
    Sys2Proof.core.run 1 (start 0x10 [0x47, 7] []) = .next (after (start 0x10 [0x47, 7] [])) ∧
    (after (start 0x10 [0x47, 7] [])).runState = .running ∧
    Sys2Proof.core.run 0 (start 0x10 [0x47, 7] []) = .next (start 0x10 [0x47, 7] []) :=
  ⟨rfl, Nat.zero_le 1, rfl, by decide, rfl⟩
/-- A step that halts, one that faults, one that goes on, and a state at rest. -/
theorem witness_StateTransitionsAreThoseListed :
    (step (start 0xFF [0x01] []) = .next (after (start 0xFF [0x01] [])) ∧
      (start 0xFF [0x01] []).runState = .running ∧ (start 0xFF [0x01] []).fetch.ir = 0x01) ∧
    (step State.reset = .next (after State.reset) ∧ State.reset.runState = .running ∧
      (after State.reset).runState = .faulted) ∧
    (step (start 0x10 [0x11] []) = .next (after (start 0x10 [0x11] [])) ∧
      (after (start 0x10 [0x11] [])).runState = .running) ∧
    (step (after State.reset) = .next (after (after State.reset)) ∧ (after State.reset).runState ≠ .running) :=
  ⟨⟨rfl, by decide⟩, ⟨rfl, by decide⟩, ⟨rfl, by decide⟩, rfl, by decide⟩
theorem witness_ExitStatusFollowsTheEndState :
    (after (start 0xFF [0x01] [])).runState = .halted ∧ (after State.reset).runState = .faulted ∧
    State.reset.runState = .running ∧ (Config.ExitFault.mk (-1) (by decide) (by decide)).value ≠ 1 := by decide

/-! ### Reset, boot, invariants, the control FSM -/

theorem witness_ResetGivesTheListedValues : (0 : Fin 8) ≠ 7 ∧ (6 : Fin 8) ≠ 7 := by decide
/-- Reset in the middle of an instruction; the two phases that only reset leaves. -/
theorem witness_ResetAtAnyTimeKeepsMemory :
    (⟨State.reset, .execute, 0, 0, 0⟩ : Fsm).phase ≠ .halted ∧ (⟨State.reset, .halted, 0, 0, 0⟩ : Fsm).phase = .halted ∧
    (⟨State.reset, .faulted, 0, 0, 0⟩ : Fsm).phase = .faulted ∧ (0 : Fin 8) ≠ 7 ∧
    (⟨State.reset, .execute, 0x45, 7, 0⟩ : Fsm).access ≠ some (.write 0xF4 0xF3) := by decide
/-- A write of PUSH on the port, and a cell that it does not address. -/
theorem witness_ResetAbandonsTheAccessInProgress :
    (⟨State.reset, .execute, 0x45, 7, 0⟩ : Fsm).access = some (.write 0xF3 0xF3) ∧ State.reset.load 0xF3 ≠ 0xF3 := by decide
theorem witness_LoaderWritesOnlyInLoad :
    (⟨State.reset, .fetch0, 0, 0, 0⟩ : Fsm).phase ≠ .load ∧ (⟨State.reset, .load, 0, 0, 0⟩ : Fsm).phase = .load := by decide
/-- An instruction of each kind in EXECUTE: PUSH, RET and ADD. -/
theorem witness_MemoryPortByPhase :
    ((⟨State.reset, .execute, 0x45, 0, 0⟩ : Fsm).phase = .execute ∧
      (⟨State.reset, .execute, 0x45, 0, 0⟩ : Fsm).decoded = .ok (.push 0) ∧ (Instr.push 0).wellFormed = true ∧
      (Instr.push 0).opcode ∈ [(0x45 : Byte), 0x50]) ∧
    ((⟨State.reset, .execute, 0x11, 0, 0⟩ : Fsm).decoded = .ok .ret ∧ Instr.ret.wellFormed = true ∧
      Instr.ret.opcode ∈ [(0x46 : Byte), 0x11]) ∧
    ((⟨State.reset, .execute, 0xA0, 0, 7⟩ : Fsm).decoded = .ok (.add 0 7) ∧ (Instr.add 0 7).wellFormed = true ∧
      (Instr.add 0 7).opcode ∉ [(0x46 : Byte), 0x11, 0x45, 0x50]) ∧
    (⟨State.reset, .load, 0, 0, 0⟩ : Fsm).phase = .load ∧ (⟨State.reset, .fetch0, 0, 0, 0⟩ : Fsm).phase = .fetch0 ∧
    (⟨State.reset, .fetch1, 0, 0, 0⟩ : Fsm).phase = .fetch1 ∧ (⟨State.reset, .fetch2, 0, 0, 0⟩ : Fsm).phase = .fetch2 :=
  ⟨⟨rfl, rfl, by decide, by decide⟩, ⟨rfl, by decide, by decide⟩, ⟨rfl, by decide, by decide⟩, rfl, rfl, rfl, rfl⟩
/-- A Faulted state satisfies the invariant with its fault explained: LDI with the operand 8. -/
theorem inv_of_faulted : Inv (after (start 0x10 [0x82, 8, 0] [])) :=
  ⟨by decide, by decide,
    fun _ => show 8 ≤ (8 : Byte).toNat ∧ _ from
      ⟨by decide, .inl ⟨by decide, by decide⟩⟩,
    by decide⟩
/-- A Running state with a program in memory satisfies the invariant. -/
theorem inv_of_running : Inv (start 0x10 [0x45, 7] []) :=
  ⟨by decide, by decide, fun h => absurd h (by decide), by decide⟩
theorem witness_FaultCauseCodes :
    (Inv (start 0x10 [0x45, 7] []) ∧ (start 0x10 [0x45, 7] []).runState ≠ .faulted) ∧
    Inv (after (start 0x10 [0x82, 8, 0] [])) := ⟨⟨inv_of_running, by decide⟩, inv_of_faulted⟩
theorem witness_StepKeepsInvariant :
    (Inv (start 0x10 [0x45, 7] []) ∧ step (start 0x10 [0x45, 7] []) = .next (after (start 0x10 [0x45, 7] []))) ∧
    (Inv (after (start 0x10 [0x82, 8, 0] [])) ∧
      step (after (start 0x10 [0x82, 8, 0] [])) = .next (after (after (start 0x10 [0x82, 8, 0] [])))) :=
  ⟨⟨inv_of_running, rfl⟩, inv_of_faulted, rfl⟩
theorem witness_FsmRealisesTheStep :
    (⟨start 0x10 [0x45, 7] [], .fetch0, 0, 0, 0⟩ : Fsm).phase = .fetch0 ∧ (start 0x10 [0x45, 7] []).runState = .running ∧
    step (start 0x10 [0x45, 7] []) = .next (after (start 0x10 [0x45, 7] [])) := ⟨rfl, rfl, rfl⟩
/-- In EXECUTE, with the latches filled. -/
theorem witness_FsmKeepsInvariant : FsmInv ⟨start 0x10 [0x45, 7] [], .execute, 0x45, 7, 0⟩ :=
  ⟨inv_of_running, rfl, by decide, by decide, by decide, by decide, fun _ => ⟨.push 7, rfl, by decide⟩⟩

end Sys2Proof.Tests
end

section
/-! PROOFS. What a memory reads after a write and after it is filled with an image, and the state when reset is released. -/

namespace Sys2Proof.Machine

/-! ## Reads after a write, a fill and an image -/

/-- A cell reads what was last written to it, and the others as before (R31, R32). -/
theorem read_write (m : Memory) (a v x : Byte) :
    Memory.read (Memory.write m a v) x = if x = a then v else Memory.read m x := by
  simp only [Memory.read, Memory.write, ← BitVec.toNat_inj (x := x)]
  split
  · next hv =>
    rw [lookup_erase]
    split
    · next hx => rw [hv, hx]
    · rfl
  · rw [lookup_insert _ _ _ _ (erase_keys_ne _ _), lookup_erase]
    split <;> rfl

/-- Filling the first `n` cells sets these and keeps the others. -/
theorem read_fill (image : Byte → Byte) (m : Memory) (n : Nat) (hn : n ≤ 256) (x : Byte) :
    Memory.read (Memory.fill image m n) x = if x.toNat < n then image x else Memory.read m x := by
  induction n with
  | zero => simp [Memory.fill]
  | succ n ih =>
    rw [Memory.fill, read_write, ih (by omega)]
    by_cases hx : x = BitVec.ofNat 8 n
    · have hlt : x.toNat < n + 1 := by
        rw [hx, BitVec.toNat_ofNat]
        omega
      rw [if_pos hx, if_pos hlt, hx]
    · have hne : x.toNat ≠ n := fun h => hx (by rw [← h, BitVec.ofNat_toNat, BitVec.setWidth_eq])
      have hiff : x.toNat < n + 1 ↔ x.toNat < n := by omega
      simp only [if_neg hx, hiff]

/-- Every cell of the memory of an image reads the image (R28, R162). -/
@[simp] theorem read_ofImage (image : Byte → Byte) (x : Byte) : Memory.read (Memory.ofImage image) x = image x := by
  rw [Memory.ofImage, read_fill image [] 256 le_rfl, if_pos x.isLt]

/-! ## The state when reset is released -/

/-- `R[7]` is the stack pointer's reset value and every other register is 0, whatever memory holds (R27, D11). -/
theorem afterReset_reg (m : Memory) (k : Fin 8) : (State.afterReset m).reg k = if k = 7 then 0xF4 else 0x00 := by
  change (State.afterReset []).reg k = _
  revert k
  decide

@[simp] theorem afterReset_load (m : Memory) (a : Byte) : (State.afterReset m).load a = Memory.read m a := rfl

/-- Settles O48: the register file by `afterReset_reg`, the cells by `read_ofImage`, the other fields by definition. -/
theorem resetGivesTheListedValues : Obligations.ResetGivesTheListedValues := by
  intro image
  have hregs : ∀ k : Fin 8, k ≠ 7 → (State.resetWith image).reg k = 0x00 := fun k hk =>
    (afterReset_reg _ k).trans (if_neg hk)
  have hsp : (State.resetWith image).reg 7 = 0xF4 := afterReset_sp _
  have hcells : ∀ a : Byte, (State.resetWith image).load a = image a := fun a => by
    rw [State.resetWith, afterReset_load, read_ofImage]
  exact ⟨hregs, hsp, rfl, rfl, rfl, rfl, rfl, hcells⟩

end Sys2Proof.Machine
end

section
/-! PROOFS. What a state reads after a store (R31 and R32 of 20_memory.md). -/

namespace Sys2Proof.Machine

/-! ## Loads after a store -/

/-- `MemRead` after `MemWrite`, over the state (R31, R32). -/
theorem load_store (s : State) (a v x : Byte) : (s.store a v).load x = if x = a then v else s.load x :=
  read_write s.mem a v x

@[simp] theorem load_store_self (s : State) (a v : Byte) : (s.store a v).load a = v := by
  rw [load_store, if_pos rfl]

theorem load_store_ne (s : State) {a x : Byte} (v : Byte) (h : x ≠ a) : (s.store a v).load x = s.load x := by
  rw [load_store, if_neg h]

/-- Settles O20: the cells by `load_store`; the other fields by the laws of `store`. -/
theorem storeChangesOnlyItsCell : Obligations.StoreChangesOnlyItsCell := by
  intro s a v
  have hregs : SameRegistersBut [] s (s.store a v) := fun k _ => store_reg s a v k
  have hstatus : SameStatus s (s.store a v) :=
    ⟨store_runState s a v, store_faultCause s a v, store_faultInfo s a v⟩
  exact ⟨load_store_self s a v, fun _ hx => load_store_ne s v hx, hregs, store_pc s a v, hstatus, store_out s a v⟩

end Sys2Proof.Machine
end

section
/-! PROOFS. The decoder's outputs and the fate of every opcode byte (R52 and R58 of 30_encoding.md). -/

namespace Sys2Proof.Machine

/-! ## The decoder's outputs (R52) -/

/-- Bits 7:6 of a byte are its quotient by 64 (R51, R52). -/
theorem operandCount_eq_div (ir : Byte) : operandCount ir = ir.toNat / 64 := by
  have hquot : ir.toNat / 64 < 2 ^ 2 := by have := ir.isLt; omega
  rw [operandCount, BitVec.extractLsb'_toNat, Nat.shiftRight_eq_div_pow, Nat.mod_eq_of_lt hquot]

/-- Bit 5 of a byte, in arithmetic (R51, R52). -/
theorem isAluOp_eq_decide (ir : Byte) : isAluOp ir = decide (ir.toNat / 32 % 2 = 1) :=
  Nat.testBit_eq_decide_div_mod_eq

/-! ## Dispatch: bit 5 chooses the path, and a path rejects the bytes it does not list (R58) -/

theorem decode_of_bit5_set {ir : Byte} (h : ir.getLsbD 5 = true) (opa opb : Byte) :
    decode ir opa opb = selectAlu ir opa opb := if_pos h

theorem decode_of_bit5_clear {ir : Byte} (h : ir.getLsbD 5 = false) (opa opb : Byte) :
    decode ir opa opb = selectHandler ir opa opb := if_neg (Bool.eq_false_iff.mp h)

/-- The set of R58 is the set of the dispatch on the ALU path. -/
theorem aluBytes_eq_opcodes : aluBytes = [opAdd, opSub, opMul, opDiv] := rfl

/-- The set of R58 is the set of the dispatch on the handler path. -/
theorem handlerBytes_eq_opcodes :
    handlerBytes = [opHlt, opRet, opPush, opPop, opPrn, opCall, opJmp, opLdi] := rfl

theorem selectAlu_of_notMem {ir : Byte} (h : ir ∉ aluBytes) (opa opb : Byte) :
    selectAlu ir opa opb = .error (.unsupportedAluOperation ir) := by
  simp only [aluBytes_eq_opcodes, List.mem_cons, List.not_mem_nil, or_false, not_or] at h
  obtain ⟨hadd, hsub, hmul, hdiv⟩ := h
  rw [selectAlu, if_neg hadd, if_neg hsub, if_neg hmul, if_neg hdiv]

theorem selectHandler_of_notMem {ir : Byte} (h : ir ∉ handlerBytes) (opa opb : Byte) :
    selectHandler ir opa opb = .error (.unknownOpcode ir) := by
  simp only [handlerBytes_eq_opcodes, List.mem_cons, List.not_mem_nil, or_false, not_or] at h
  obtain ⟨hhlt, hret, hpush, hpop, hprn, hcall, hjmp, hldi⟩ := h
  rw [selectHandler, if_neg hhlt, if_neg hret, if_neg hpush, if_neg hpop, if_neg hprn, if_neg hcall, if_neg hjmp,
    if_neg hldi]

/-- A byte with bit 5 = 1 that is no ALU opcode (R58, R140, D7). -/
theorem decode_unsupportedAluOperation {ir : Byte} (ha : ir ∉ aluBytes) (h5 : ir.getLsbD 5 = true)
    (opa opb : Byte) : decode ir opa opb = .error (.unsupportedAluOperation ir) :=
  (decode_of_bit5_set h5 opa opb).trans (selectAlu_of_notMem ha opa opb)

/-- A byte with bit 5 = 0 that no handler has (R58, R141, D7). -/
theorem decode_unknownOpcode {ir : Byte} (hh : ir ∉ handlerBytes) (h5 : ir.getLsbD 5 = false)
    (opa opb : Byte) : decode ir opa opb = .error (.unknownOpcode ir) :=
  (decode_of_bit5_clear h5 opa opb).trans (selectHandler_of_notMem hh opa opb)

/-- A byte outside both sets of R58 is rejected. -/
theorem decode_rejects_illegal {ir : Byte} (ha : ir ∉ aluBytes) (hh : ir ∉ handlerBytes) (opa opb : Byte) :
    ∃ r, decode ir opa opb = .error r := by
  cases h5 : ir.getLsbD 5 with
  | true => exact ⟨_, decode_unsupportedAluOperation ha h5 opa opb⟩
  | false => exact ⟨_, decode_unknownOpcode hh h5 opa opb⟩

/-- No legal opcode has bits 7:6 = `11` (R52, R56). -/
theorem legal_opcode_operandCount_ne_three : ∀ x ∈ aluBytes ++ handlerBytes, x.toNat / 64 ≠ 3 := by decide

/-- Settles O24: the outputs by `operandCount_eq_div` and `isAluOp_eq_decide`; a byte with bits 7:6 = `11` is outside both
sets of legal opcodes. -/
theorem decoderSplitsTheOpcodeByte : Obligations.DecoderSplitsTheOpcodeByte := by
  intro ir
  refine ⟨operandCount_eq_div ir, isAluOp_eq_decide ir, rfl, fun hcount opa opb => ?_⟩
  have ha : ir ∉ aluBytes := fun h => legal_opcode_operandCount_ne_three ir (List.mem_append_left _ h) hcount
  have hh : ir ∉ handlerBytes := fun h => legal_opcode_operandCount_ne_three ir (List.mem_append_right _ h) hcount
  exact decode_rejects_illegal ha hh opa opb

/-! ## The fault of a rejected byte -/

/-- Fault entry gives the three status registers and keeps the rest (R132, R135). -/
theorem faultedFrom_raise (s : State) (cause : FaultCause) (info : Byte) :
    FaultedFrom s (s.raise cause info) cause info :=
  ⟨raise_runState s cause info, raise_faultCause s cause info, raise_faultInfo s cause info,
    fun k _ => raise_reg s cause info k, raise_pc s cause info, fun x => load_raise s cause info x,
    raise_out s cause info⟩

/-- A Running machine that fetches a byte outside both sets of R58 takes the fault that bit 5 chooses (R58, D7). -/
theorem step_faults_of_illegal {s : State} {ir opa opb : Byte} (ha : ir ∉ aluBytes) (hh : ir ∉ handlerBytes)
    (hrun : s.runState = .running) (hfetch : s.fetch = ⟨ir, opa, opb⟩) :
    ∃ t, step s = .next t ∧
      FaultedFrom s t (if ir.getLsbD 5 then .unsupportedAluOperation else .unknownOpcode) ir := by
  have hdec : s.fetch.decode = decode ir opa opb := by rw [hfetch]; rfl
  cases h5 : ir.getLsbD 5 with
  | true =>
    have hrej := hdec.trans (decode_unsupportedAluOperation ha h5 opa opb)
    exact ⟨_, step_of_rejected hrun hrej, faultedFrom_raise s .unsupportedAluOperation ir⟩
  | false =>
    have hrej := hdec.trans (decode_unknownOpcode hh h5 opa opb)
    exact ⟨_, step_of_rejected hrun hrej, faultedFrom_raise s .unknownOpcode ir⟩

/-- Settles O25: the twelve legal bytes by evaluation; the others by the two rejections and `step_faults_of_illegal`. -/
theorem opcodeTableIsClosed : Obligations.OpcodeTableIsClosed := by
  intro opa opb
  refine ⟨rfl, rfl, rfl, rfl, rfl, rfl, rfl, rfl, rfl, rfl, rfl, rfl, fun ir => ⟨?_, ?_, ?_⟩⟩
  · exact fun ha h5 => decode_unsupportedAluOperation ha h5 opa opb
  · exact fun hh h5 => decode_unknownOpcode hh h5 opa opb
  · exact fun ha hh _ hrun hfetch => step_faults_of_illegal ha hh hrun hfetch

end Sys2Proof.Machine
end

section
/-! PROOFS. Fetch, decode and dispatch (40_fetch_decode_dispatch.md): what a Running machine's step can do (R76, R78), the end
states (R79), and the control FSM's fetch phases and memory port (R71, R72, R82). -/

namespace Sys2Proof.Machine

/-! ## The opcode of a decoded instruction -/

theorem opcode_of_selectAlu {ir opa opb : Byte} {i : Instr} (h : selectAlu ir opa opb = .ok i) : i.opcode = ir := by
  unfold selectAlu at h
  split_ifs at h
  all_goals cases h; exact Eq.symm ‹ir = _›

theorem opcode_of_selectHandler {ir opa opb : Byte} {i : Instr} (h : selectHandler ir opa opb = .ok i) :
    i.opcode = ir := by
  unfold selectHandler at h
  split_ifs at h
  all_goals cases h; exact Eq.symm ‹ir = _›

/-- The byte an instruction was decoded from is its opcode (R56). -/
theorem opcode_of_decode {ir opa opb : Byte} {i : Instr} (h : decode ir opa opb = .ok i) : i.opcode = ir := by
  cases h5 : ir.getLsbD 5 with
  | true => exact opcode_of_selectAlu ((decode_of_bit5_set h5 opa opb).symm.trans h)
  | false => exact opcode_of_selectHandler ((decode_of_bit5_clear h5 opa opb).symm.trans h)

/-! ## The step of a Running machine (R78) -/

theorem step_of_decoded {s : State} {i : Instr} (h : s.runState = .running) (hd : s.fetch.decode = .ok i) :
    step s = exec i s := by simp [step, h, hd]

/-- The fault of a rejected byte is a fault entry (R132). -/
theorem raiseReject_eq_raise (s : State) (r : Reject) : ∃ c x, s.raiseReject r = s.raise c x := by
  cases r with
  | unsupportedAluOperation ir => exact ⟨_, _, rfl⟩
  | unknownOpcode ir => exact ⟨_, _, rfl⟩

/-- All that a Running machine's step can do: execute the instruction whose opcode is at `PC`, or take the fault of a rejected
byte. -/
theorem step_cases_of_running {s t : State} (hrun : s.runState = .running) (h : step s = .next t) :
    (∃ i, s.fetch.decode = .ok i ∧ i.opcode = s.fetch.ir ∧ exec i s = .next t) ∨
    (∃ r, s.fetch.decode = .error r ∧ t = s.raiseReject r) := by
  cases hd : s.fetch.decode with
  | ok i => exact .inl ⟨i, rfl, opcode_of_decode hd, (step_of_decoded hrun hd).symm.trans h⟩
  | error r =>
    rw [step_of_rejected hrun hd] at h
    exact .inr ⟨r, rfl, (Host.Outcome.next.inj h).symm⟩

/-! ## The generic advance (R76) -/

/-- `t` is reached from `s` with `STATE` kept and `PC` advanced past the opcode byte and its operands, or by a fault entry. -/
def AdvancesOrFaults (opcode : Byte) (s t : State) : Prop :=
  (t.runState = s.runState ∧ t.pc = s.pc + 1 + BitVec.ofNat 8 (operandCount opcode)) ∨ ∃ c x, t = s.raise c x

theorem advancesOrFaults_raise (opcode : Byte) (s : State) (c : FaultCause) (x : Byte) :
    AdvancesOrFaults opcode s (s.raise c x) := .inr ⟨c, x, rfl⟩

/-- An effect that keeps `STATE` and `PC`, followed by the generic advance. -/
theorem advancesOrFaults_advancePast {opcode : Byte} {s u : State} (hrun : u.runState = s.runState)
    (hpc : u.pc = s.pc) : AdvancesOrFaults opcode s (u.advancePast opcode) :=
  .inl ⟨hrun, by rw [advancePast_pc, hpc]⟩

/-- The shape of an instruction with one register operand and the generic advance. -/
theorem withRegister_advancesOrFaults {opcode x : Byte} {s t : State} {effect : Fin 8 → State}
    (hrun : ∀ i, (effect i).runState = s.runState) (hpc : ∀ i, (effect i).pc = s.pc)
    (h : withRegister x s (fun i => .next ((effect i).advancePast opcode)) = .next t) :
    AdvancesOrFaults opcode s t := by
  rcases withRegister_cases h with ⟨i, -, hnext⟩ | ⟨-, rfl⟩
  · cases hnext
    exact advancesOrFaults_advancePast (hrun i) (hpc i)
  · exact advancesOrFaults_raise ..

theorem execAlu_advancesOrFaults {op : AluOp} {opcode a b : Byte} {s t : State}
    (h : execAlu op opcode a b s = .next t) : AdvancesOrFaults opcode s t := by
  rcases execAlu_cases h with ⟨-, rfl⟩ | ⟨-, -, rfl⟩ | ⟨_, _, -, -, -, rfl⟩ | ⟨_, _, _, -, -, -, rfl⟩
  · exact advancesOrFaults_raise ..
  · exact advancesOrFaults_raise ..
  · exact advancesOrFaults_raise ..
  · exact advancesOrFaults_advancePast rfl rfl

/-- Every instruction but HLT, RET, CALL and JMP, which set or keep `PC` themselves (R77). -/
theorem exec_advancesOrFaults {i : Instr} {s t : State} (hop : i.opcode ∉ [opHlt, opRet, opCall, opJmp])
    (h : exec i s = .next t) : AdvancesOrFaults i.opcode s t := by
  cases i with
  | hlt | ret | call | jmp => simp [Instr.opcode] at hop
  | push a =>
    exact withRegister_advancesOrFaults (effect := fun i => s.pushBy fun u => u.reg i) (fun _ => rfl) (fun _ => rfl) h
  | pop a =>
    exact withRegister_advancesOrFaults (effect := fun i => (s.setReg i (s.load s.sp)).incSp) (fun _ => rfl)
      (fun _ => rfl) h
  | prn a =>
    exact withRegister_advancesOrFaults (effect := fun i => s.emit (s.reg i)) (fun _ => rfl) (fun _ => rfl) h
  | ldi a imm =>
    exact withRegister_advancesOrFaults (effect := fun i => s.setReg i (immediate imm)) (fun _ => rfl)
      (fun _ => rfl) h
  | add => exact execAlu_advancesOrFaults (op := .add) h
  | sub => exact execAlu_advancesOrFaults (op := .sub) h
  | mul => exact execAlu_advancesOrFaults (op := .mul) h
  | div => exact execAlu_advancesOrFaults (op := .div) h

/-- Every step of a Running machine but that of HLT, RET, CALL and JMP. -/
theorem step_advancesOrFaults {s t : State} (hrun : s.runState = .running)
    (hop : s.fetch.ir ∉ [opHlt, opRet, opCall, opJmp]) (h : step s = .next t) :
    AdvancesOrFaults s.fetch.ir s t := by
  rcases step_cases_of_running hrun h with ⟨i, -, hir, hexec⟩ | ⟨r, -, rfl⟩
  · rw [← hir] at hop ⊢
    exact exec_advancesOrFaults hop hexec
  · exact .inr (raiseReject_eq_raise s r)

/-- The generic advance in arithmetic: `1 + operand_count` modulo 256, the count in bits 7:6 (R76, D4). -/
theorem toNat_genericAdvance (pc opcode : Byte) :
    (pc + 1 + BitVec.ofNat 8 (operandCount opcode)).toNat = (pc.toNat + 1 + opcode.toNat / 64) % 256 := by
  simp [operandCount_eq_div, BitVec.toNat_add]

theorem toNat_div_of_two_operands : ∀ op ∈ [(0x82 : Byte), 0xA0, 0xA1, 0xA2, 0xA3], op.toNat / 64 = 2 := by decide

theorem toNat_div_of_one_operand : ∀ op ∈ [(0x47 : Byte), 0x45, 0x46], op.toNat / 64 = 1 := by decide

/-- Settles O33, by `step_advancesOrFaults`: an advance keeps Running, and a fault entry keeps `PC`. -/
theorem genericAdvanceFollowsOperandCount : Obligations.GenericAdvanceFollowsOperandCount := by
  intro s t hrun hstep hop
  rcases step_advancesOrFaults hrun hop hstep with ⟨hstate, hpc⟩ | ⟨c, x, rfl⟩
  · have hadvance : t.pc.toNat = (s.pc.toNat + 1 + s.fetch.ir.toNat / 64) % 256 := by
      rw [hpc, toNat_genericAdvance]
    refine ⟨fun _ => ⟨hadvance, fun htwo => ?_, fun hone => ?_⟩, fun hfault => ?_⟩
    · rw [hadvance, toNat_div_of_two_operands _ htwo]
    · rw [hadvance, toNat_div_of_one_operand _ hone]
    · simp [hstate, hrun] at hfault
  · exact ⟨fun hok => absurd rfl hok, fun _ => rfl⟩

/-! ## The end states (R79) -/

theorem step_of_not_running {s : State} (h : s.runState ≠ .running) : step s = .next s := by
  cases hs : s.runState with
  | running => exact absurd hs h
  | halted => exact step_of_halted hs
  | faulted => exact step_of_faulted hs

/-- A run goes on from the state its first step answers. -/
theorem run_succ_of_step {s t : State} (h : step s = .next t) (n : Nat) :
    Sys2Proof.core.run (n + 1) s = Sys2Proof.core.run n t := by
  have hcore : Sys2Proof.core.step s = .next t := h
  simp only [Host.Core.run, hcore]

theorem run_of_not_running {s : State} (h : s.runState ≠ .running) (n : Nat) :
    Sys2Proof.core.run n s = .next s := by
  induction n with
  | zero => rfl
  | succ n ih => exact (run_succ_of_step (step_of_not_running h) n).trans ih

/-! ## The ports of the control FSM by phase (R82, R83) -/

section Ports

variable {m : Fsm}

theorem access_of_fetch0 (h : m.phase = .fetch0) : m.access = some (.read m.arch.pc) := by simp [Fsm.access, h]

theorem access_of_fetch1 (h : m.phase = .fetch1) : m.access = some (.read (m.arch.pc + 1)) := by simp [Fsm.access, h]

theorem access_of_fetch2 (h : m.phase = .fetch2) : m.access = some (.read (m.arch.pc + 2)) := by simp [Fsm.access, h]

theorem access_of_execute {i : Instr} (h : m.phase = .execute) (hd : m.decoded = .ok i) :
    m.access = dataAccess i m.arch := by
  simp [Fsm.access, h, hd, Except.toOption]

theorem access_of_idle (h : m.phase ∈ [Phase.load, .decode, .halted, .faulted]) : m.access = none := by
  simp only [List.mem_cons, List.not_mem_nil, or_false] at h
  rcases h with h | h | h | h <;> simp [Fsm.access, h]

theorem outPort_of_ne_execute (h : m.phase ≠ .execute) : m.outPort = none := by
  cases hphase : m.phase with
  | execute => exact absurd hphase h
  | load | fetch0 | fetch1 | fetch2 | decode | halted | faulted => simp [Fsm.outPort, hphase]

/-! ## Transitions of the control FSM while reset is not asserted (R81) -/

theorem advance_of_fetch0 {inp : FsmInputs} (hrst : inp.rst = false) (h : m.phase = .fetch0) :
    m.advance inp = { m with ir := m.arch.load m.arch.pc, phase := .fetch1 } := by simp [Fsm.advance, hrst, h]

theorem advance_of_fetch1 {inp : FsmInputs} (hrst : inp.rst = false) (h : m.phase = .fetch1) :
    m.advance inp = { m with opa := m.arch.load (m.arch.pc + 1), phase := .fetch2 } := by simp [Fsm.advance, hrst, h]

theorem advance_of_fetch2 {inp : FsmInputs} (hrst : inp.rst = false) (h : m.phase = .fetch2) :
    m.advance inp = { m with opb := m.arch.load (m.arch.pc + 2), phase := .decode } := by simp [Fsm.advance, hrst, h]

theorem advance_of_end_phase {inp : FsmInputs} (hrst : inp.rst = false) (h : m.phase = .halted ∨ m.phase = .faulted) :
    m.advance inp = m := by
  rcases h with h | h <;> simp [Fsm.advance, hrst, h]

/-- Three transitions from FETCH0 fill the latches and do nothing else (R71, R72). -/
theorem run_three_of_fetch0 (h : m.phase = .fetch0) :
    Fsm.run 3 m =
      { arch := m.arch, phase := .decode, ir := m.arch.fetch.ir, opa := m.arch.fetch.opa, opb := m.arch.fetch.opb } := by
  rw [Fsm.run, advance_of_fetch0 rfl h, Fsm.run, advance_of_fetch1, Fsm.run, advance_of_fetch2] <;> rfl

/-- In LOAD, with reset held, the Loader's write is on the reset machine (R39, R160). -/
theorem advance_of_load_write {inp : FsmInputs} {w : LoaderWrite} (hrst : inp.rst = true) (hw : inp.loader = some w)
    (h : m.phase = .load) : (m.advance inp).arch = m.arch.assertReset.store w.addr w.data := by
  simp [Fsm.advance, Fsm.holdReset, hrst, hw, h]

end Ports

/-- Settles O42: the run by `run_of_not_running`; the FSM by its ports and its transition in the two end phases. -/
theorem endStatesAreTerminal : Obligations.EndStatesAreTerminal := by
  refine ⟨fun n s h => run_of_not_running h n, fun m w h => ⟨access_of_idle ?_, outPort_of_ne_execute ?_, ?_⟩⟩
  · rcases h with h | h <;> simp [h]
  · rcases h with h | h <;> simp [h]
  · exact advance_of_end_phase rfl h

/-- Address arithmetic written with `%` is the addition of bytes (D4). -/
theorem ofNat_toNat_add_mod (a : Byte) (k : Nat) :
    BitVec.ofNat 8 ((a.toNat + k) % 256) = a + BitVec.ofNat 8 k := by
  apply BitVec.eq_of_toNat_eq
  simp [BitVec.toNat_add]

/-- Settles O23, by `run_three_of_fetch0`. -/
theorem fetchReadsThreeBytesAndChangesNothing : Obligations.FetchReadsThreeBytesAndChangesNothing := by
  intro m h
  rw [run_three_of_fetch0 h, ofNat_toNat_add_mod, ofNat_toNat_add_mod]
  exact ⟨rfl, rfl, rfl, rfl, rfl, rfl⟩

/-! ## The data access of an instruction (R36, R82) -/

/-- A register operand of a well-formed instruction names a register. -/
theorem regIndex?_of_wellFormed {i : Instr} {x : Byte} (h : i.wellFormed = true) (hx : x ∈ i.registerOperands) :
    ∃ r, regIndex? x = some r := by
  have hlt : x.toNat < 8 := by simpa using List.all_eq_true.mp h x hx
  exact ⟨⟨x.toNat, hlt⟩, (regIndex?_eq_some_iff x _).2 rfl⟩

theorem dataAccess_of_stack_read {i : Instr} (s : State) (hwf : i.wellFormed = true)
    (hop : i.opcode ∈ [opPop, opRet]) : dataAccess i s = some (.read s.sp) := by
  cases i with
  | ret => rfl
  | pop a =>
    obtain ⟨r, hr⟩ := regIndex?_of_wellFormed hwf (List.mem_singleton_self a)
    simp [dataAccess, hr]
  | hlt | push | prn | call | jmp | ldi | add | sub | mul | div => exact absurd hop (of_decide_eq_false rfl)

theorem dataAccess_of_stack_write {i : Instr} (s : State) (hwf : i.wellFormed = true)
    (hop : i.opcode ∈ [opPush, opCall]) : ∃ v, dataAccess i s = some (.write (s.sp - 1) v) := by
  cases i with
  | push a =>
    obtain ⟨r, hr⟩ := regIndex?_of_wellFormed hwf (List.mem_singleton_self a)
    exact ⟨s.decSp.reg r, by simp [dataAccess, hr]⟩
  | call a =>
    obtain ⟨r, hr⟩ := regIndex?_of_wellFormed hwf (List.mem_singleton_self a)
    exact ⟨s.returnAddress, by simp [dataAccess, hr]⟩
  | hlt | ret | pop | prn | jmp | ldi | add | sub | mul | div => exact absurd hop (of_decide_eq_false rfl)

theorem dataAccess_of_no_stack {i : Instr} (s : State) (hop : i.opcode ∉ [opPop, opRet, opPush, opCall]) :
    dataAccess i s = none := by
  cases i with
  | ret | push | pop | call => simp [Instr.opcode] at hop
  | hlt | prn | jmp | ldi | add | sub | mul | div => rfl

/-- Settles O56: the port of each phase, with EXECUTE's by the three laws of `dataAccess`; the Loader's byte by
`load_store_self`. -/
theorem memoryPortByPhase : Obligations.MemoryPortByPhase := by
  refine fun m => ⟨access_of_fetch0, access_of_fetch1, access_of_fetch2, access_of_idle, fun h x => ?_,
    fun h i hd hwf => ?_⟩
  · rw [advance_of_load_write rfl rfl h, load_store_self]
  · rw [access_of_execute h hd]
    exact ⟨dataAccess_of_stack_read m.arch hwf, dataAccess_of_stack_write m.arch hwf, dataAccess_of_no_stack m.arch⟩

end Sys2Proof.Machine
end

section
/-! PROOFS. ADD, SUB, MUL and DIV (41_alu.md): what `narrow` keeps of an exact result (R97, R98), the faults and the effect of
the ALU path (R74, R90), and the four instructions (R91 to R94, R96). -/

namespace Sys2Proof.Machine

/-! ## Exact results, narrowed (R97, R98) -/

/-- Narrowing to a byte keeps an exact result just when it fits in a byte (R97, D1, C5). -/
theorem narrow_toNat_eq_iff (z : Int) : ((narrow z).toNat : Int) = z ↔ 0 ≤ z ∧ z ≤ 255 := by
  rw [narrow_toNat]
  omega

/-- `narrow_toNat_eq_iff` for an exact result that is not negative. -/
theorem narrow_ofNat_eq_iff (n : Nat) : (narrow (n : Int)).toNat = n ↔ n ≤ 255 := by
  rw [narrow_ofNat]
  omega

theorem aluExact_add (va vb : Byte) : aluExact .add va vb = some ((va.toNat + vb.toNat : Nat) : Int) := rfl

theorem aluExact_sub (va vb : Byte) : aluExact .sub va vb = some ((va.toNat : Int) - (vb.toNat : Int)) := rfl

theorem aluExact_mul (va vb : Byte) : aluExact .mul va vb = some ((va.toNat * vb.toNat : Nat) : Int) := rfl

theorem aluExact_div {va vb : Byte} (h : vb ≠ 0x00) :
    aluExact .div va vb = some ((va.toNat / vb.toNat : Nat) : Int) :=
  if_neg fun hzero => h (BitVec.eq_of_toNat_eq hzero)

/-! ## The ALU path: faults, effect and frame (R74, R90, R142) -/

/-- What an ALU instruction with destination `R[i]` leaves unchanged, and its advance of `PC` by 3 (R76, R91). -/
def AdvancesByThreeKeepingAllBut (i : Fin 8) (s t : State) : Prop :=
  t.pc.toNat = (s.pc.toNat + 3) % 256 ∧ SameRegistersBut [i] s t ∧ SameStatus s t ∧ SameMemory s t ∧ t.out = s.out

theorem setReg_advancePast_frame (s : State) (i : Fin 8) (v : Byte) {opcode : Byte} (hop : opcode.toNat / 64 = 2) :
    AdvancesByThreeKeepingAllBut i s ((s.setReg i v).advancePast opcode) := by
  have hpc : ((s.setReg i v).advancePast opcode).pc.toNat = (s.pc.toNat + 3) % 256 := by
    rw [advancePast_pc, setReg_pc, toNat_genericAdvance, hop]
  have hregs : SameRegistersBut [i] s ((s.setReg i v).advancePast opcode) := fun k hk => by
    rw [advancePast_reg, reg_setReg_ne s v (List.ne_of_not_mem_cons hk)]
  exact ⟨hpc, hregs, ⟨rfl, rfl, rfl⟩, fun _ => rfl, rfl⟩

section AluPath

variable {op : AluOp} {opcode a b : Byte} {s : State}

theorem execAlu_faults_of_bad_a (ha : 8 ≤ a.toNat) :
    ∃ t, execAlu op opcode a b s = .next t ∧ FaultedFrom s t .invalidRegister a :=
  ⟨_, withRegister_of_bad ha s _, faultedFrom_raise s .invalidRegister a⟩

/-- The second operand is checked once the first is a register (D10). -/
theorem execAlu_faults_of_bad_b (ha : a.toNat < 8) (hb : 8 ≤ b.toNat) :
    ∃ t, execAlu op opcode a b s = .next t ∧ FaultedFrom s t .invalidRegister b := by
  have hindex : a.toNat = (⟨a.toNat, ha⟩ : Fin 8).val := rfl
  rw [execAlu, withRegister_of_index hindex]
  exact ⟨_, withRegister_of_bad hb s _, faultedFrom_raise s .invalidRegister b⟩

variable {i j : Fin 8}

/-- The effect of the ALU path where the operation has an exact result. -/
theorem execAlu_writes_narrow {z : Int} (ha : a.toNat = i.val) (hb : b.toNat = j.val)
    (hz : aluExact op (s.reg i) (s.reg j) = some z) (hop : opcode.toNat / 64 = 2) :
    ∃ t, execAlu op opcode a b s = .next t ∧ t.reg i = narrow z ∧ AdvancesByThreeKeepingAllBut i s t := by
  have hr : aluEvaluate op (s.reg i) (s.reg j) = some (narrow z) := by rw [aluEvaluate, hz, Option.map_some]
  have hreg : ((s.setReg i (narrow z)).advancePast opcode).reg i = narrow z := by
    rw [advancePast_reg, reg_setReg_self]
  exact ⟨_, execAlu_of_result ha hb hr opcode, hreg, setReg_advancePast_frame s i _ hop⟩

/-! ## The four instructions on two registers (R91 to R94) -/

theorem exec_add_writes (ha : a.toNat = i.val) (hb : b.toNat = j.val) :
    ∃ t, exec (.add a b) s = .next t ∧ t.reg i = narrow (((s.reg i).toNat + (s.reg j).toNat : Nat) : Int) ∧
      AdvancesByThreeKeepingAllBut i s t :=
  execAlu_writes_narrow ha hb (aluExact_add _ _) rfl

theorem exec_sub_writes (ha : a.toNat = i.val) (hb : b.toNat = j.val) :
    ∃ t, exec (.sub a b) s = .next t ∧ t.reg i = narrow (((s.reg i).toNat : Int) - ((s.reg j).toNat : Int)) ∧
      AdvancesByThreeKeepingAllBut i s t :=
  execAlu_writes_narrow ha hb (aluExact_sub _ _) rfl

theorem exec_mul_writes (ha : a.toNat = i.val) (hb : b.toNat = j.val) :
    ∃ t, exec (.mul a b) s = .next t ∧ t.reg i = narrow (((s.reg i).toNat * (s.reg j).toNat : Nat) : Int) ∧
      AdvancesByThreeKeepingAllBut i s t :=
  execAlu_writes_narrow ha hb (aluExact_mul _ _) rfl

theorem exec_div_writes (ha : a.toNat = i.val) (hb : b.toNat = j.val) (hne : s.reg j ≠ 0x00) :
    ∃ t, exec (.div a b) s = .next t ∧ t.reg i = narrow (((s.reg i).toNat / (s.reg j).toNat : Nat) : Int) ∧
      AdvancesByThreeKeepingAllBut i s t :=
  execAlu_writes_narrow ha hb (aluExact_div hne) rfl

/-- DIV by a register that holds 0, whatever the dividend (R94, R139). -/
theorem exec_div_faults_of_zero (ha : a.toNat = i.val) (hb : b.toNat = j.val) (hzero : s.reg j = 0x00) :
    ∃ t, exec (.div a b) s = .next t ∧ FaultedFrom s t .divisionByZero 0x00 := by
  have hnone : aluEvaluate .div (s.reg i) (s.reg j) = none := (aluEvaluate_eq_none_iff ..).2 ⟨rfl, hzero⟩
  exact ⟨_, execAlu_of_no_result ha hb hnone opDiv, faultedFrom_raise s .divisionByZero 0x00⟩

end AluPath

/-! ## The obligations of 41_alu.md -/

/-- Settles O14: each instruction writes its exact result narrowed; the law modulo 256 is `narrow_toNat`, and its exact case
`narrow_toNat_eq_iff`, where a sum or product is never negative and a difference never above 255. -/
theorem arithmeticLawExactInRange : Obligations.ArithmeticLawExactInRange := by
  intro a b i j s ha hb
  refine ⟨?_, ?_, ?_⟩
  · obtain ⟨t, hexec, hreg, -⟩ := exec_mul_writes (s := s) ha hb
    refine ⟨t, hexec, ?_, ?_⟩
    · rw [hreg, narrow_toNat, Nat.cast_mul]
    · rw [hreg, narrow_ofNat_eq_iff]
  · obtain ⟨t, hexec, hreg, -⟩ := exec_add_writes (s := s) ha hb
    refine ⟨t, hexec, ?_, ?_⟩
    · rw [hreg, narrow_toNat, Nat.cast_add]
    · rw [hreg, narrow_ofNat_eq_iff]
  · obtain ⟨t, hexec, hreg, -⟩ := exec_sub_writes (s := s) ha hb
    refine ⟨t, hexec, ?_, ?_⟩
    · rw [hreg, narrow_toNat]
    · have hbyte : (s.reg i).toNat < 256 := (s.reg i).isLt
      rw [hreg, narrow_toNat_eq_iff]
      omega

/-- Settles O1: the faults of the ALU path, and the sum narrowed. -/
theorem addWritesSumModulo256 : Obligations.AddWritesSumModulo256 := by
  intro a b s
  rw [exec_add]
  refine ⟨rfl, execAlu_faults_of_bad_a, execAlu_faults_of_bad_b, fun i j ha hb => ?_⟩
  obtain ⟨t, hexec, hreg, hframe⟩ := exec_add_writes (s := s) ha hb
  exact ⟨t, hexec, by rw [hreg, narrow_ofNat], hframe⟩

/-- Settles O2: the faults of the ALU path, and the difference narrowed. -/
theorem subWritesDifferenceModulo256 : Obligations.SubWritesDifferenceModulo256 := by
  intro a b s
  rw [exec_sub]
  refine ⟨rfl, execAlu_faults_of_bad_a, execAlu_faults_of_bad_b, fun i j ha hb => ?_⟩
  obtain ⟨t, hexec, hreg, hframe⟩ := exec_sub_writes (s := s) ha hb
  exact ⟨t, hexec, by rw [hreg, narrow_toNat], hframe⟩

/-- Settles O3: the faults of the ALU path, and the product narrowed. -/
theorem mulWritesProductModulo256 : Obligations.MulWritesProductModulo256 := by
  intro a b s
  rw [exec_mul]
  refine ⟨rfl, execAlu_faults_of_bad_a, execAlu_faults_of_bad_b, fun i j ha hb => ?_⟩
  obtain ⟨t, hexec, hreg, hframe⟩ := exec_mul_writes (s := s) ha hb
  exact ⟨t, hexec, by rw [hreg, narrow_ofNat], hframe⟩

/-- Settles O4: the faults of the ALU path, the divisor 0, and the quotient, which narrowing keeps: it is no more than the
dividend. -/
theorem divWritesQuotientOrFaults : Obligations.DivWritesQuotientOrFaults := by
  intro a b s
  rw [exec_div]
  refine ⟨rfl, execAlu_faults_of_bad_a, execAlu_faults_of_bad_b,
    fun i j => exec_div_faults_of_zero, fun i j ha hb hne => ?_⟩
  obtain ⟨t, hexec, hreg, hframe⟩ := exec_div_writes ha hb hne
  have hquot : (s.reg i).toNat / (s.reg j).toNat ≤ 255 :=
    (Nat.div_le_self ..).trans (Nat.le_of_lt_succ (s.reg i).isLt)
  exact ⟨t, hexec, by rw [hreg, (narrow_ofNat_eq_iff _).2 hquot], hframe⟩

/-- Settles O13: the results of the four instructions with `R[a]`'s old value on both sides. -/
theorem aluReadsBothOperandsBeforeWriting : Obligations.AluReadsBothOperandsBeforeWriting := by
  refine fun a i s ha => ⟨?_, ?_, ?_, fun hne => ?_, exec_div_faults_of_zero ha ha⟩
  · obtain ⟨t, hexec, hreg, -⟩ := exec_add_writes (s := s) ha ha
    exact ⟨t, hexec, by rw [hreg, narrow_ofNat, ← Nat.two_mul]⟩
  · obtain ⟨t, hexec, hreg, -⟩ := exec_sub_writes (s := s) ha ha
    exact ⟨t, hexec, by rw [hreg, Int.sub_self]; rfl⟩
  · obtain ⟨t, hexec, hreg, -⟩ := exec_mul_writes (s := s) ha ha
    exact ⟨t, hexec, by rw [hreg, narrow_ofNat, ← Nat.pow_two]⟩
  · obtain ⟨t, hexec, hreg, -⟩ := exec_div_writes ha ha hne
    have hpos : 0 < (s.reg i).toNat := Nat.pos_of_ne_zero fun hzero => hne (BitVec.eq_of_toNat_eq hzero)
    exact ⟨t, hexec, by rw [hreg, Nat.div_self hpos]; rfl⟩

end Sys2Proof.Machine
end

section
/-! PROOFS. HLT, LDI and PRN (42_halt_load_print.md): what the other instructions do to `STATE` and `OUT`, the effects of the
three (R100 to R102), and a printed byte as text (R103). -/

namespace Sys2Proof.Machine

/-! ## HLT is the only way to Halted (R18, R100) -/

/-- Every instruction but HLT keeps `STATE` or enters a fault. -/
theorem exec_runState_of_ne_hlt {i : Instr} {s t : State} (hi : i ≠ .hlt) (h : exec i s = .next t) :
    t.runState = s.runState ∨ t.runState = .faulted := by
  cases i with
  | hlt => exact absurd rfl hi
  | ret =>
    cases h
    exact .inl rfl
  | call | jmp =>
    rcases withRegister_cases h with ⟨r, -, hnext⟩ | ⟨-, rfl⟩
    · cases hnext
      exact .inl rfl
    · exact .inr rfl
  | push | pop | prn | ldi | add | sub | mul | div =>
    rcases exec_advancesOrFaults (of_decide_eq_false rfl) h with ⟨hstate, -⟩ | ⟨c, x, rfl⟩
    · exact .inl hstate
    · exact .inr rfl

/-- A Running machine whose step ends in Halted has the opcode of HLT at `PC`. -/
theorem fetch_ir_of_step_halts {s t : State} (hrun : s.runState = .running) (hstep : step s = .next t)
    (hhalt : t.runState = .halted) : s.fetch.ir = opHlt := by
  rcases step_cases_of_running hrun hstep with ⟨i, -, hir, hexec⟩ | ⟨r, -, rfl⟩
  · by_cases hi : i = .hlt
    · rw [← hir, hi, Instr.opcode]
    · rcases exec_runState_of_ne_hlt hi hexec with hstate | hstate <;> simp [hstate, hrun] at hhalt
  · obtain ⟨c, x, hraise⟩ := raiseReject_eq_raise s r
    simp [hraise] at hhalt

/-! ## PRN is the only instruction that appends to `OUT` (R22, R102) -/

theorem execAlu_keeps_out {op : AluOp} {opcode a b : Byte} {s t : State}
    (h : execAlu op opcode a b s = .next t) : t.out = s.out := by
  rcases execAlu_cases h with ⟨-, rfl⟩ | ⟨-, -, rfl⟩ | ⟨_, _, -, -, -, rfl⟩ | ⟨_, _, _, -, -, -, rfl⟩
  · exact raise_out ..
  · exact raise_out ..
  · exact raise_out ..
  · rw [advancePast_out, setReg_out]

theorem exec_keeps_out_of_ne_prn {i : Instr} {s t : State} (hi : ∀ x : Byte, i ≠ .prn x) (h : exec i s = .next t) :
    t.out = s.out := by
  cases i with
  | prn a => exact absurd rfl (hi a)
  | hlt | ret =>
    cases h
    rfl
  | push | pop | call | jmp | ldi =>
    rcases withRegister_cases h with ⟨r, -, hnext⟩ | ⟨-, rfl⟩
    · cases hnext
      rfl
    · exact raise_out ..
  | add => exact execAlu_keeps_out (op := .add) h
  | sub => exact execAlu_keeps_out (op := .sub) h
  | mul => exact execAlu_keeps_out (op := .mul) h
  | div => exact execAlu_keeps_out (op := .div) h

/-! ## The obligations on HLT, LDI and PRN -/

/-- Settles O5: exec answers `s.halt`, terminal by `step_of_halted`; the only way to Halted is `fetch_ir_of_step_halts`. -/
theorem hltHaltsAndChangesNothingElse : Obligations.HltHaltsAndChangesNothingElse := by
  intro s
  have hdecode : ∀ x y : Byte, decode 0x01 x y = .ok .hlt := fun _ _ => rfl
  have hregs : SameRegistersBut [] s s.halt := fun k _ => halt_reg s k
  have hterminal : step s.halt = .next s.halt := step_of_halted (halt_runState s)
  exact ⟨rfl, hdecode, fun t => fetch_ir_of_step_halts, s.halt, rfl, halt_runState s, halt_pc s, halt_faultCause s,
    halt_faultInfo s, hregs, load_halt s, halt_out s, hterminal, fun _ => rfl⟩

/-- Settles O6: the operand's check is `withRegister`'s; the frame is that of a register write before an advance by 3. -/
theorem ldiLoadsTheImmediate : Obligations.LdiLoadsTheImmediate := by
  intro a imm s
  refine ⟨rfl, fun ha => ?_, fun i ha => ?_⟩
  · exact ⟨_, withRegister_of_bad ha s _, faultedFrom_raise s .invalidRegister a⟩
  · have hreg : ((s.setReg i (immediate imm)).advancePast opLdi).reg i = imm := by
      rw [advancePast_reg, reg_setReg_self, immediate]
    exact ⟨_, withRegister_of_index ha s _, hreg, setReg_advancePast_frame s i _ rfl⟩

/-- Settles O7: the operand's check is `withRegister`'s; the other instructions by `exec_keeps_out_of_ne_prn`. -/
theorem prnAppendsTheRegister : Obligations.PrnAppendsTheRegister := by
  intro a s
  refine ⟨rfl, fun ha => ?_, fun i ha => ?_, fun i t => exec_keeps_out_of_ne_prn⟩
  · exact ⟨_, withRegister_of_bad ha s _, faultedFrom_raise s .invalidRegister a⟩
  · have hout : ((s.emit (s.reg i)).advancePast opPrn).out = s.out ++ [s.reg i] := by
      rw [advancePast_out, emit_out]
    have hpc : ((s.emit (s.reg i)).advancePast opPrn).pc.toNat = (s.pc.toNat + 2) % 256 := by
      rw [advancePast_pc, emit_pc, toNat_genericAdvance]
      rfl
    exact ⟨_, withRegister_of_index ha s _, hout, hpc, fun _ _ => rfl, ⟨rfl, rfl, rfl⟩, fun _ => rfl⟩

/-! ## A printed byte as text (R103) -/

theorem decimalDigits_of_lt_ten {v : Byte} (h : v.toNat < 10) : decimalDigits v = [v.toNat] := if_pos h

theorem decimalDigits_of_two {v : Byte} (hten : ¬ v.toNat < 10) (h : v.toNat < 100) :
    decimalDigits v = [v.toNat / 10, v.toNat % 10] := (if_neg hten).trans (if_pos h)

theorem decimalDigits_of_three {v : Byte} (hten : ¬ v.toNat < 10) (h : ¬ v.toNat < 100) :
    decimalDigits v = [v.toNat / 100, v.toNat / 10 % 10, v.toNat % 10] := (if_neg hten).trans (if_neg h)

/-- The value, the bound and the number of the digits, in the three sizes of a byte. -/
theorem decimalDigits_spec (v : Byte) :
    (decimalDigits v).foldl (fun n d => 10 * n + d) 0 = v.toNat ∧ (∀ d ∈ decimalDigits v, d < 10) ∧
    (decimalDigits v).length = (if v.toNat < 10 then 1 else if v.toNat < 100 then 2 else 3) := by
  have hbyte : v.toNat < 256 := v.isLt
  by_cases hten : v.toNat < 10
  · rw [decimalDigits_of_lt_ten hten, if_pos hten]
    refine ⟨?_, ?_, rfl⟩ <;> simp [hten]
  · by_cases hhundred : v.toNat < 100
    · rw [decimalDigits_of_two hten hhundred, if_neg hten, if_pos hhundred]
      refine ⟨?_, ?_, rfl⟩ <;> simp <;> omega
    · rw [decimalDigits_of_three hten hhundred, if_neg hten, if_neg hhundred]
      refine ⟨?_, ?_, rfl⟩ <;> simp <;> omega

/-- The character the model gives a digit is the digit's numeral. -/
theorem char_of_digit : ∀ d < 10, Char.ofNat (48 + d) = "0123456789".toList.getD d '?' := by decide

/-- Settles O47: the digits by `decimalDigits_spec`, and their characters by `char_of_digit`, each digit being below 10. -/
theorem outputRendersAsDecimal : Obligations.OutputRendersAsDecimal := by
  intro v
  obtain ⟨hvalue, hdigits, hlength⟩ := decimalDigits_spec v
  exact ⟨hvalue, hdigits, hlength, List.map_congr_left fun d hd => char_of_digit d (hdigits d hd)⟩

end Sys2Proof.Machine
end

section
/-! PROOFS. The stack (43_stack.md): the stack pointer's arithmetic and what a push leaves in memory (R110, R113), the effects of
PUSH and POP (R111, R112, R114, R115), and the wrap at both ends. -/

namespace Sys2Proof.Machine

/-! ## The stack pointer (R11, R110, R113) -/

theorem setReg_seven_sp (s : State) (v : Byte) : (s.setReg 7 v).sp = v := reg_setReg_self s 7 v

theorem setReg_sp_ne (s : State) {i : Fin 8} (v : Byte) (h : i ≠ 7) : (s.setReg i v).sp = s.sp :=
  reg_setReg_ne s v h.symm

@[simp] theorem setPc_sp (s : State) (t : Byte) : (s.setPc t).sp = s.sp := rfl
@[simp] theorem advancePast_sp (s : State) (op : Byte) : (s.advancePast op).sp = s.sp := rfl
@[simp] theorem pushBy_sp (s : State) (f : State → Byte) : (s.pushBy f).sp = s.decSp.sp := rfl

/-- `SP - 1` modulo 256 (D3). -/
theorem decSp_sp_toNat (s : State) : (s.decSp.sp.toNat : Int) = ((s.sp.toNat : Int) - 1) % 256 := by
  have hone : (1 : Byte).toNat = 1 := rfl
  rw [decSp_sp, BitVec.toNat_sub, hone]
  omega

/-- `SP + 1` modulo 256 (D3). -/
theorem incSp_sp_toNat (s : State) : s.incSp.sp.toNat = (s.sp.toNat + 1) % 256 := by
  rw [incSp_sp, BitVec.toNat_add]
  rfl

/-- A register read after the decrement: register 7 is then the decremented `SP` itself (R112, D17). -/
theorem decSp_reg_eq_ite (s : State) (k : Fin 8) : s.decSp.reg k = if k = 7 then s.decSp.sp else s.reg k := by
  rw [decSp_reg, decSp_sp]

theorem decSp_reg_ne (s : State) {k : Fin 8} (h : k ≠ 7) : s.decSp.reg k = s.reg k := by
  rw [decSp_reg, if_neg h]

theorem incSp_reg_ne (s : State) {k : Fin 8} (h : k ≠ 7) : s.incSp.reg k = s.reg k := by
  rw [incSp_reg, if_neg h]

/-! ## Memory after a push (R110) -/

theorem load_pushBy_self (s : State) (f : State → Byte) : (s.pushBy f).load s.decSp.sp = f s.decSp :=
  load_store_self s.decSp s.decSp.sp (f s.decSp)

theorem load_pushBy_ne (s : State) (f : State → Byte) {x : Byte} (h : x ≠ s.decSp.sp) :
    (s.pushBy f).load x = s.load x :=
  load_store_ne s.decSp (f s.decSp) h

/-! ## The stack instructions on a register (R111, R114, R120, R123) -/

theorem exec_push_of_index {a : Byte} {i : Fin 8} (h : a.toNat = i.val) (s : State) :
    exec (.push a) s = .next ((s.pushBy fun t => t.reg i).advancePast opPush) :=
  withRegister_of_index h s _

theorem exec_pop_of_index {a : Byte} {i : Fin 8} (h : a.toNat = i.val) (s : State) :
    exec (.pop a) s = .next ((s.setReg i (s.load s.sp)).incSp.advancePast opPop) :=
  withRegister_of_index h s _

theorem exec_call_of_index {a : Byte} {i : Fin 8} (h : a.toNat = i.val) (s : State) :
    exec (.call a) s =
      .next ((s.pushBy State.returnAddress).setPc ((s.pushBy State.returnAddress).reg i)) :=
  withRegister_of_index h s _

theorem exec_ret (s : State) : exec .ret s = .next (s.setPc (s.load s.sp)).incSp := rfl

/-- The return address that CALL pushes, `PC + 2` modulo 256 (R121, D4). -/
theorem returnAddress_toNat (s : State) : s.returnAddress.toNat = (s.pc.toNat + 2) % 256 := by
  rw [State.returnAddress, BitVec.toNat_add]
  rfl

/-- The advance past an instruction with one operand byte, `PC + 2` modulo 256 (R76). -/
theorem advancePast_pc_toNat_of_one_operand (s : State) {opcode : Byte} (hop : opcode.toNat / 64 = 1) :
    (s.advancePast opcode).pc.toNat = (s.pc.toNat + 2) % 256 := by
  rw [advancePast_pc, toNat_genericAdvance, hop]

/-! ## The obligations of 43_stack.md -/

/-- Settles O8: the cell and the other cells by the laws of `pushBy`; the byte pushed is read after the decrement, which
`decSp_reg_eq_ite` splits by the register. -/
theorem pushStoresBelowTheStackPointer : Obligations.PushStoresBelowTheStackPointer := by
  intro a s
  refine ⟨rfl, fun ha => ?_, fun i ha => ?_⟩
  · exact ⟨_, withRegister_of_bad ha s _, faultedFrom_raise s .invalidRegister a⟩
  · refine ⟨_, exec_push_of_index ha s, decSp_sp_toNat s, ?_, ?_, fun x hx => ?_, ?_, fun k hk => ?_,
      ⟨rfl, rfl, rfl⟩, rfl⟩
    · rw [advancePast_sp, pushBy_sp]
    · rw [load_advancePast, load_pushBy_self, decSp_reg_eq_ite]
    · rw [load_advancePast, load_pushBy_ne s _ hx]
    · exact advancePast_pc_toNat_of_one_operand _ rfl
    · rw [advancePast_reg, pushBy_reg, decSp_reg_ne s (List.ne_of_not_mem_cons hk)]

/-- Settles O9: the byte goes into `R[a]` before the increment, so for register 7 it is the byte that is incremented. -/
theorem popLoadsFromTheStackPointer : Obligations.PopLoadsFromTheStackPointer := by
  intro a s
  refine ⟨rfl, fun ha => ?_, fun i ha => ?_⟩
  · exact ⟨_, withRegister_of_bad ha s _, faultedFrom_raise s .invalidRegister a⟩
  · refine ⟨_, exec_pop_of_index ha s, fun hi => ⟨?_, ?_⟩, ?_, ?_, fun k hk => ?_, ⟨rfl, rfl, rfl⟩, fun _ => rfl, rfl⟩
    · rw [advancePast_reg, incSp_reg_ne _ hi, reg_setReg_self]
    · rw [advancePast_sp, incSp_sp_toNat, setReg_sp_ne s _ hi]
    · rintro rfl
      rw [advancePast_sp, incSp_sp_toNat, setReg_seven_sp]
    · exact advancePast_pc_toNat_of_one_operand _ rfl
    · obtain ⟨hki, hk7⟩ : k ≠ i ∧ k ≠ 7 := by simpa using hk
      rw [advancePast_reg, incSp_reg_ne _ hk7, reg_setReg_ne s _ hki]

/-- Settles O15: PUSH and POP by their obligations O8 and O9 at the two ends, CALL by the laws of `pushBy`, RET by `exec_ret`. -/
theorem stackPointerWrapsWithoutFault : Obligations.StackPointerWrapsWithoutFault := by
  intro a i s ha hrun
  refine ⟨fun hsp => ?_, fun hsp => ?_⟩
  · have hdec : s.decSp.sp = 0xFF := by
      rw [decSp_sp, hsp]
      rfl
    constructor
    · obtain ⟨-, -, hpush⟩ := pushStoresBelowTheStackPointer a s
      obtain ⟨t, hexec, -, htop, hcell, -, -, -, ⟨hstate, -⟩, -⟩ := hpush i ha
      rw [hdec] at htop hcell
      exact ⟨t, hexec, htop, hcell, hstate.trans hrun⟩
    · refine ⟨_, exec_call_of_index ha s, ?_, ?_, hrun⟩
      · rw [setPc_sp, pushBy_sp, hdec]
      · rw [load_setPc, ← hdec, load_pushBy_self]
        exact returnAddress_toNat s.decSp
  · obtain ⟨-, -, hpop⟩ := popLoadsFromTheStackPointer a s
    obtain ⟨t, hexec, hother, hseven, -, -, ⟨hstate, -⟩, -⟩ := hpop i ha
    rw [hsp] at hother hseven
    refine ⟨fun hi => ?_, fun hi => ?_, ?_⟩
    · obtain ⟨hreg, htop⟩ := hother hi
      exact ⟨t, hexec, hreg, BitVec.eq_of_toNat_eq htop, hstate.trans hrun⟩
    · exact ⟨t, hexec, hseven hi, hstate.trans hrun⟩
    · refine ⟨_, exec_ret s, ?_, ?_, hrun⟩
      · rw [incSp_pc, setPc_pc, hsp]
      · rw [incSp_sp, setPc_sp, hsp]
        rfl

end Sys2Proof.Machine
end

section
/-! PROOFS. CALL, RET and JMP (44_control_transfer.md): their effects and frames (R120 to R124), the return to the address after
a CALL (R126), and the jump to itself. -/

namespace Sys2Proof.Machine

/-! ## JMP on a register (R124) -/

theorem exec_jmp_of_index {a : Byte} {i : Fin 8} (h : a.toNat = i.val) (s : State) :
    exec (.jmp a) s = .next (s.setPc (s.reg i)) :=
  withRegister_of_index h s _

@[simp] theorem setPc_self (s : State) : s.setPc s.pc = s := rfl

/-! ## A state that its own step answers -/

theorem run_of_step_self {s : State} (h : step s = .next s) (n : Nat) : Sys2Proof.core.run n s = .next s := by
  induction n with
  | zero => rfl
  | succ n ih => exact (run_succ_of_step h n).trans ih

/-- A run from such a state reaches no other. -/
theorem eq_of_run_of_step_self {s t : State} (h : step s = .next s) {n : Nat}
    (hrun : Sys2Proof.core.run n s = .next t) : t = s :=
  Host.Outcome.next.inj (hrun.symm.trans (run_of_step_self h n))

/-! ## The obligations of 44_control_transfer.md -/

/-- Settles O10: the cell and the other cells by the laws of `pushBy`; the target is read after the decrement, which
`decSp_reg_eq_ite` splits by the register. -/
theorem callPushesReturnAddressAndJumps : Obligations.CallPushesReturnAddressAndJumps := by
  intro a s
  refine ⟨rfl, fun ha => ?_, fun i ha => ?_⟩
  · exact ⟨_, withRegister_of_bad ha s _, faultedFrom_raise s .invalidRegister a⟩
  · refine ⟨_, exec_call_of_index ha s, decSp_sp_toNat s, ?_, ?_, fun x hx => ?_, ?_, fun k hk => ?_,
      ⟨rfl, rfl, rfl⟩, rfl⟩
    · rw [setPc_sp, pushBy_sp]
    · rw [load_setPc, load_pushBy_self]
      exact returnAddress_toNat s.decSp
    · rw [load_setPc, load_pushBy_ne s _ hx]
    · rw [setPc_pc, pushBy_reg, decSp_reg_eq_ite]
    · rw [setPc_reg, pushBy_reg, decSp_reg_ne s (List.ne_of_not_mem_cons hk)]

/-- Settles O11: exec answers the jump to the byte at `SP` before the increment, which touches register 7 only. -/
theorem retPopsIntoThePc : Obligations.RetPopsIntoThePc := by
  intro s
  have hdecode : ∀ x y : Byte, decode 0x11 x y = .ok .ret := fun _ _ => rfl
  refine ⟨rfl, hdecode, _, exec_ret s, ?_, ?_, fun k hk => ?_, ⟨rfl, rfl, rfl⟩, fun _ => rfl, rfl⟩
  · rw [incSp_pc, setPc_pc]
  · rw [incSp_sp_toNat, setPc_sp]
  · rw [incSp_reg_ne _ (List.ne_of_not_mem_cons hk), setPc_reg]

/-- Settles O12: the operand's check is `withRegister`'s; the frame is that of `setPc`. -/
theorem jmpReplacesOnlyThePc : Obligations.JmpReplacesOnlyThePc := by
  intro a s
  refine ⟨rfl, fun ha => ?_, fun i ha => ?_⟩
  · exact ⟨_, withRegister_of_bad ha s _, faultedFrom_raise s .invalidRegister a⟩
  · have hregs : SameRegistersBut [] s (s.setPc (s.reg i)) := fun k _ => setPc_reg s _ k
    exact ⟨_, exec_jmp_of_index ha s, setPc_pc s _, hregs, ⟨rfl, rfl, rfl⟩, load_setPc s _, setPc_out s _⟩

/-- Settles O17: CALL by O10 leaves the return address at the decremented `SP`; RET by O11 reads it there, and its increment
undoes the decrement. -/
theorem returnComesBackAfterTheCall : Obligations.ReturnComesBackAfterTheCall := by
  intro a i s ha hi
  obtain ⟨-, -, hcall⟩ := callPushesReturnAddressAndJumps a s
  obtain ⟨t, hexec, -, htop, hcell, -, htarget, -⟩ := hcall i ha
  refine ⟨t, hexec, by rw [htarget, if_neg hi], fun u husp hucell => ?_⟩
  obtain ⟨-, -, v, hret, hvpc, hvsp, -⟩ := retPopsIntoThePc u
  have hpc : v.pc.toNat = (s.pc.toNat + 2) % 256 := by rw [hvpc, hucell, htop, hcell]
  have hsp : v.sp = s.sp := by
    apply BitVec.eq_of_toNat_eq
    rw [hvsp, husp, htop, ← incSp_sp_toNat, incSp_sp, decSp_sp, BitVec.sub_add_cancel]
  exact ⟨v, hret, hpc, hsp⟩

/-- Settles O19: the step answers the same state by `setPc_self`, so every run from it stays there. -/
theorem jumpToItselfNeverEnds : Obligations.JumpToItselfNeverEnds := by
  intro a i s ha hrun hdecode htarget
  have hstep : step s = .next s := by
    rw [step_of_decoded hrun hdecode, exec_jmp_of_index ha, htarget, setPc_self]
  refine ⟨hstep, fun n t ht => ?_, fun n t ht => ?_⟩
  · rw [eq_of_run_of_step_self hstep ht, hrun]
  · rw [eq_of_run_of_step_self hstep ht, hrun]
    decide

end Sys2Proof.Machine
end

section
/-! PROOFS. Fatal errors (60_exceptions.md): a step's shape for each kind of legal opcode (R78), the one fault a Running
machine's bytes and registers call for (R138 to R142), and that a step ends in Faulted just when it raises that fault. -/

namespace Sys2Proof.Machine

/-! ## The sets of opcode bytes (R53, R58) -/

theorem aluBytes_bit5_set : ∀ ir ∈ aluBytes, ir.getLsbD 5 ≠ false := by decide

theorem handlerBytes_bit5_clear : ∀ ir ∈ handlerBytes, ir.getLsbD 5 ≠ true := by decide

/-- A count over all bytes as the sum of two halves, each short enough for `decide`. -/
theorem countP_bytes_eq_halves (p : Byte → Bool) :
    ((List.range 256).map (BitVec.ofNat 8)).countP p =
      ((List.range 128).map (BitVec.ofNat 8)).countP p + ((List.range' 128 128).map (BitVec.ofNat 8)).countP p := by
  rw [← List.countP_append, ← List.map_append, List.range_eq_range', List.range_eq_range', List.range'_append_1]

theorem indexingBytes_legal : ∀ ir ∈ indexingBytes, ir ∈ aluBytes ∨ ir ∈ handlerBytes := by decide

theorem aluBytes_indexing : ∀ ir ∈ aluBytes, ir ∈ indexingBytes := by decide

/-- The handlers that index a register are PUSH, POP, PRN, CALL, JMP and LDI (R53). -/
theorem handlerBytes_indexing :
    ∀ ir ∈ handlerBytes, ir ∈ indexingBytes → ir ∈ [(0x45 : Byte), 0x46, 0x47, 0x50, 0x54, 0x82] := by decide

/-- The handlers that index no register are HLT and RET (R53). -/
theorem handlerBytes_hlt_or_ret : ∀ ir ∈ handlerBytes, ir ∉ indexingBytes → ir = 0x01 ∨ ir = 0x11 := by decide

/-! ## The step by the kind of its opcode (R74, R75, R78) -/

section StepByOpcode

variable {s t : State}

/-- The decoded instruction when the opcode byte is known. -/
theorem fetch_decode_of_ir {op : Byte} (h : s.fetch.ir = op) :
    s.fetch.decode = decode op s.fetch.opa s.fetch.opb := by rw [← h]; rfl

/-- An ALU opcode goes down the ALU path, on both operand bytes; it is DIV's operation for 0xA3 alone. -/
theorem step_of_aluByte (hrun : s.runState = .running) (hir : s.fetch.ir ∈ aluBytes) :
    ∃ op : AluOp, (op = .div ↔ s.fetch.ir = 0xA3) ∧
      step s = execAlu op s.fetch.ir s.fetch.opa s.fetch.opb s := by
  simp only [aluBytes, List.mem_cons, List.not_mem_nil, or_false] at hir
  rcases hir with h | h | h | h
  all_goals rw [h]
  · exact ⟨.add, by decide, step_of_decoded hrun (fetch_decode_of_ir h)⟩
  · exact ⟨.sub, by decide, step_of_decoded hrun (fetch_decode_of_ir h)⟩
  · exact ⟨.mul, by decide, step_of_decoded hrun (fetch_decode_of_ir h)⟩
  · exact ⟨.div, by decide, step_of_decoded hrun (fetch_decode_of_ir h)⟩

/-- A handler that indexes a register checks operand_a, and then has an effect that keeps `STATE`. -/
theorem step_of_indexingHandler (hrun : s.runState = .running) (hhandler : s.fetch.ir ∈ handlerBytes)
    (hindex : s.fetch.ir ∈ indexingBytes) :
    ∃ effect : Fin 8 → State, step s = withRegister s.fetch.opa s (fun i => .next (effect i)) ∧
      ∀ i, (effect i).runState = s.runState := by
  have hir := handlerBytes_indexing _ hhandler hindex
  simp only [List.mem_cons, List.not_mem_nil, or_false] at hir
  rcases hir with h | h | h | h | h | h
  all_goals exact ⟨_, step_of_decoded hrun (fetch_decode_of_ir h), fun _ => rfl⟩

/-- HLT and RET check nothing. -/
theorem step_of_hlt_or_ret_not_faulted (hrun : s.runState = .running) (hstep : step s = .next t)
    (hir : s.fetch.ir = 0x01 ∨ s.fetch.ir = 0x11) : t.runState ≠ .faulted := by
  rcases hir with h | h
  · have hhlt : step s = exec .hlt s := step_of_decoded hrun (fetch_decode_of_ir h)
    cases hstep.symm.trans hhlt
    simp
  · have hret : step s = exec .ret s := step_of_decoded hrun (fetch_decode_of_ir h)
    cases hstep.symm.trans hret
    simp [hrun]

/-- Every opcode that indexes a register checks operand_a first (R142). -/
theorem step_of_bad_opa (hrun : s.runState = .running) (hir : s.fetch.ir ∈ indexingBytes)
    (ha : 8 ≤ s.fetch.opa.toNat) : step s = .next (s.raise .invalidRegister s.fetch.opa) := by
  rcases indexingBytes_legal _ hir with halu | hhandler
  · obtain ⟨op, -, hstep⟩ := step_of_aluByte hrun halu
    exact hstep.trans (withRegister_of_bad ha s _)
  · obtain ⟨effect, hstep, -⟩ := step_of_indexingHandler hrun hhandler hir
    exact hstep.trans (withRegister_of_bad ha s _)

end StepByOpcode

/-! ## The fault a step raises (R134, R138 to R142) -/

/-- The fetched bytes and the registers of `s` call for this fault, with this information: one constructor for each check of
R142, under the checks before it. No constructor has the cause of R137. -/
inductive RaisesFault (s : State) : FaultCause → Byte → Prop where
  | unsupportedAluOperation (h5 : s.fetch.ir.getLsbD 5 = true) (hir : s.fetch.ir ∉ aluBytes) :
      RaisesFault s .unsupportedAluOperation s.fetch.ir
  | unknownOpcode (h5 : s.fetch.ir.getLsbD 5 = false) (hir : s.fetch.ir ∉ handlerBytes) :
      RaisesFault s .unknownOpcode s.fetch.ir
  | operandA (hir : s.fetch.ir ∈ indexingBytes) (ha : 8 ≤ s.fetch.opa.toNat) :
      RaisesFault s .invalidRegister s.fetch.opa
  | operandB (hir : s.fetch.ir ∈ aluBytes) (ha : s.fetch.opa.toNat < 8) (hb : 8 ≤ s.fetch.opb.toNat) :
      RaisesFault s .invalidRegister s.fetch.opb
  | divisor {j : Fin 8} (hir : s.fetch.ir = 0xA3) (ha : s.fetch.opa.toNat < 8) (hb : s.fetch.opb.toNat = j.val)
      (hzero : s.reg j = 0x00) : RaisesFault s .divisionByZero 0x00

section FaultOfStep

variable {s t : State} {c : FaultCause} {x : Byte}

/-- A fault that is called for is raised. -/
theorem step_of_raisesFault (hrun : s.runState = .running) (h : RaisesFault s c x) :
    step s = .next (s.raise c x) := by
  cases h with
  | unsupportedAluOperation h5 hir => exact step_of_rejected hrun (decode_unsupportedAluOperation hir h5 _ _)
  | unknownOpcode h5 hir => exact step_of_rejected hrun (decode_unknownOpcode hir h5 _ _)
  | operandA hir ha => exact step_of_bad_opa hrun hir ha
  | operandB hir ha hb =>
    have hindex : s.fetch.opa.toNat = (⟨s.fetch.opa.toNat, ha⟩ : Fin 8).val := rfl
    obtain ⟨op, -, hstep⟩ := step_of_aluByte hrun hir
    rw [hstep, execAlu, withRegister_of_index hindex, withRegister_of_bad hb]
  | @divisor j hir ha hb hzero =>
    have halu : s.fetch.ir ∈ aluBytes := by rw [hir]; decide
    have hindex : s.fetch.opa.toNat = (⟨s.fetch.opa.toNat, ha⟩ : Fin 8).val := rfl
    obtain ⟨op, hdiv, hstep⟩ := step_of_aluByte hrun halu
    have hnone := (aluEvaluate_eq_none_iff op (s.reg ⟨s.fetch.opa.toNat, ha⟩) (s.reg j)).2 ⟨hdiv.2 hir, hzero⟩
    exact hstep.trans (execAlu_of_no_result hindex hb hnone _)

/-- The fault of an opcode outside both sets of R58. -/
theorem raisesFault_of_illegal (halu : s.fetch.ir ∉ aluBytes) (hhandler : s.fetch.ir ∉ handlerBytes) :
    RaisesFault s (if s.fetch.ir.getLsbD 5 then .unsupportedAluOperation else .unknownOpcode) s.fetch.ir := by
  cases h5 : s.fetch.ir.getLsbD 5 with
  | true => exact .unsupportedAluOperation h5 halu
  | false => exact .unknownOpcode h5 hhandler

/-- An ALU instruction that faults was called to by operand_a, operand_b or the divisor. -/
theorem raisesFault_of_aluByte_faulted (hrun : s.runState = .running) (hstep : step s = .next t)
    (hir : s.fetch.ir ∈ aluBytes) (hfault : t.runState = .faulted) : ∃ c x, RaisesFault s c x := by
  obtain ⟨op, hdiv, hpath⟩ := step_of_aluByte hrun hir
  rcases execAlu_cases (hpath.symm.trans hstep) with
    ⟨ha, -⟩ | ⟨ha, hb, -⟩ | ⟨i, j, ha, hb, hnone, -⟩ | ⟨_, _, _, -, -, -, rfl⟩
  · exact ⟨_, _, .operandA (aluBytes_indexing _ hir) ha⟩
  · exact ⟨_, _, .operandB hir ha hb⟩
  · obtain ⟨hop, hzero⟩ := (aluEvaluate_eq_none_iff ..).1 hnone
    exact ⟨_, _, .divisor (hdiv.1 hop) (ha ▸ i.isLt) hb hzero⟩
  · simp [hrun] at hfault

/-- A handler that faults was called to by operand_a. -/
theorem raisesFault_of_handlerByte_faulted (hrun : s.runState = .running) (hstep : step s = .next t)
    (hir : s.fetch.ir ∈ handlerBytes) (hfault : t.runState = .faulted) : ∃ c x, RaisesFault s c x := by
  by_cases hindex : s.fetch.ir ∈ indexingBytes
  · obtain ⟨effect, hpath, hkeep⟩ := step_of_indexingHandler hrun hir hindex
    rcases withRegister_cases (hpath.symm.trans hstep) with ⟨i, -, hnext⟩ | ⟨ha, -⟩
    · cases hnext
      simp [hkeep, hrun] at hfault
    · exact ⟨_, _, .operandA hindex ha⟩
  · exact absurd hfault (step_of_hlt_or_ret_not_faulted hrun hstep (handlerBytes_hlt_or_ret _ hir hindex))

/-- A step that ends in Faulted raises a fault that was called for, and does nothing else (R132, R135). -/
theorem raisesFault_of_faulted (hrun : s.runState = .running) (hstep : step s = .next t)
    (hfault : t.runState = .faulted) : ∃ c x, RaisesFault s c x ∧ t = s.raise c x := by
  have hcalled : ∃ c x, RaisesFault s c x := by
    by_cases halu : s.fetch.ir ∈ aluBytes
    · exact raisesFault_of_aluByte_faulted hrun hstep halu hfault
    · by_cases hhandler : s.fetch.ir ∈ handlerBytes
      · exact raisesFault_of_handlerByte_faulted hrun hstep hhandler hfault
      · exact ⟨_, _, raisesFault_of_illegal halu hhandler⟩
  obtain ⟨c, x, h⟩ := hcalled
  exact ⟨c, x, h, Host.Outcome.next.inj (hstep.symm.trans (step_of_raisesFault hrun h))⟩

/-- The step ends in Faulted with a cause just when a fault of that cause is called for. -/
theorem faulted_with_cause_iff (hrun : s.runState = .running) (hstep : step s = .next t) :
    (t.runState = .faulted ∧ t.faultCause = c) ↔ ∃ x, RaisesFault s c x := by
  constructor
  · rintro ⟨hfault, rfl⟩
    obtain ⟨c, x, h, rfl⟩ := raisesFault_of_faulted hrun hstep hfault
    exact ⟨x, h⟩
  · rintro ⟨x, h⟩
    cases hstep.symm.trans (step_of_raisesFault hrun h)
    exact ⟨raise_runState s c x, raise_faultCause s c x⟩

/-- The state a fault leaves, its frame included (R135). -/
theorem faultedFrom_of_raisesFault (hrun : s.runState = .running) (hstep : step s = .next t)
    (h : RaisesFault s c x) : FaultedFrom s t c x := by
  cases hstep.symm.trans (step_of_raisesFault hrun h)
  exact faultedFrom_raise s c x

end FaultOfStep

/-! ## The cause register (R133, R137) -/

/-- No other cause shares the code of None (R133). -/
theorem faultCause_code_eq_zero_iff (c : FaultCause) : c.code = 0 ↔ c = .none := by
  cases c <;> decide

theorem faultCause_ne_none_of_explained {s : State} (h : FaultExplained s) : s.faultCause ≠ .none := by
  intro hnone
  simp [FaultExplained, hnone] at h

/-! ## The obligations of 60_exceptions.md -/

/-- Settles O36: the two opcode faults are the first two constructors of `RaisesFault`. -/
theorem illegalOpcodesFault : Obligations.IllegalOpcodesFault := by
  refine ⟨rfl, rfl, by rw [countP_bytes_eq_halves]; decide, by rw [countP_bytes_eq_halves]; decide,
    fun s t hrun hstep => ⟨?_, fun h5 hir => ?_, ?_, fun h5 hir => ?_⟩⟩
  · rw [faulted_with_cause_iff hrun hstep]
    exact ⟨fun ⟨_, .unsupportedAluOperation h5 hir⟩ => ⟨h5, hir⟩, fun ⟨h5, hir⟩ => ⟨_, .unsupportedAluOperation h5 hir⟩⟩
  · exact faultedFrom_of_raisesFault hrun hstep (.unsupportedAluOperation h5 hir)
  · rw [faulted_with_cause_iff hrun hstep]
    exact ⟨fun ⟨_, .unknownOpcode h5 hir⟩ => ⟨h5, hir⟩, fun ⟨h5, hir⟩ => ⟨_, .unknownOpcode h5 hir⟩⟩
  · exact faultedFrom_of_raisesFault hrun hstep (.unknownOpcode h5 hir)

/-- Settles O37: an ALU instruction with a bad operand_b faults on operand_a where that is bad too. -/
theorem invalidRegisterIsRaisedOnWholeBytes : Obligations.InvalidRegisterIsRaisedOnWholeBytes := by
  refine ⟨rfl, fun s t hrun hstep => ⟨?_, fun hir ha => ?_, fun hir ha hb => ?_⟩⟩
  · rw [faulted_with_cause_iff hrun hstep]
    constructor
    · rintro ⟨_, h⟩
      cases h with
      | operandA hir ha => exact .inl ⟨hir, ha⟩
      | operandB hir _ hb => exact .inr ⟨hir, hb⟩
    · rintro (⟨hir, ha⟩ | ⟨hir, hb⟩)
      · exact ⟨_, .operandA hir ha⟩
      · by_cases ha : s.fetch.opa.toNat < 8
        · exact ⟨_, .operandB hir ha hb⟩
        · exact ⟨_, .operandA (aluBytes_indexing _ hir) (not_lt.1 ha)⟩
  · exact faultedFrom_of_raisesFault hrun hstep (.operandA hir ha)
  · exact faultedFrom_of_raisesFault hrun hstep (.operandB hir ha hb)

/-- Settles O38: the cause has one constructor of `RaisesFault`, whose information is 0. -/
theorem divisionByZeroIsRaisedOnlyByDiv : Obligations.DivisionByZeroIsRaisedOnlyByDiv := by
  refine ⟨rfl, fun s t hrun hstep => ⟨?_, fun hfault hcause => ?_⟩⟩
  · rw [faulted_with_cause_iff hrun hstep]
    exact ⟨fun ⟨_, .divisor hir ha hb hzero⟩ => ⟨hir, ha, _, hb, hzero⟩,
      fun ⟨hir, ha, _, hb, hzero⟩ => ⟨_, .divisor hir ha hb hzero⟩⟩
  · obtain ⟨_, h⟩ := (faulted_with_cause_iff hrun hstep).1 ⟨hfault, hcause⟩
    cases h with
    | divisor hir ha hb hzero => exact faultedFrom_of_raisesFault hrun hstep (.divisor hir ha hb hzero)

/-- Settles O39: no constructor of `RaisesFault` has the cause. -/
theorem outOfBoundsIsNeverRaised : Obligations.OutOfBoundsIsNeverRaised := by
  refine ⟨rfl, fun s t hrun hstep => ?_⟩
  rw [faulted_with_cause_iff hrun hstep]
  rintro ⟨_, ⟨⟩⟩

/-- Settles O40: each link of the chain but the last calls for its fault; at the last, no constructor of `RaisesFault` is left. -/
theorem faultPriorityIsTheOrderOfChecks : Obligations.FaultPriorityIsTheOrderOfChecks := by
  intro s t hrun hstep
  split
  · next hillegal => exact faultedFrom_of_raisesFault hrun hstep (raisesFault_of_illegal hillegal.1 hillegal.2)
  split
  · next hopa => exact faultedFrom_of_raisesFault hrun hstep (.operandA hopa.1 hopa.2)
  split
  · next hopa hopb =>
    have ha : s.fetch.opa.toNat < 8 := not_le.1 fun h => hopa ⟨aluBytes_indexing _ hopb.1, h⟩
    exact faultedFrom_of_raisesFault hrun hstep (.operandB hopb.1 ha hopb.2)
  split
  · next hopa _ hdiv =>
    obtain ⟨hir, j, hb, hzero⟩ := hdiv
    have hindex : s.fetch.ir ∈ indexingBytes := by rw [hir]; decide
    have ha : s.fetch.opa.toNat < 8 := not_le.1 fun h => hopa ⟨hindex, h⟩
    exact faultedFrom_of_raisesFault hrun hstep (.divisor hir ha hb hzero)
  · next hlegal hopa hopb hdiv =>
    intro hfault
    obtain ⟨c, x, h, -⟩ := raisesFault_of_faulted hrun hstep hfault
    cases h with
    | unsupportedAluOperation h5 hir => exact hlegal ⟨hir, fun h => handlerBytes_bit5_clear _ h h5⟩
    | unknownOpcode h5 hir => exact hlegal ⟨fun h => aluBytes_bit5_set _ h h5, hir⟩
    | operandA hir ha => exact hopa ⟨hir, ha⟩
    | operandB hir _ hb => exact hopb ⟨hir, hb⟩
    | divisor hir _ hb hzero => exact hdiv ⟨hir, _, hb, hzero⟩

/-- Settles O41: a step that faults answers the state before it after a fault entry. -/
theorem faultsArePrecise : Obligations.FaultsArePrecise := by
  intro s t hrun hstep hfault
  obtain ⟨c, x, -, rfl⟩ := raisesFault_of_faulted hrun hstep hfault
  exact faultedFrom_raise s c x

/-- Settles O45: the codes by evaluation; by the invariant the cause is None while not Faulted and another where Faulted. -/
theorem faultCauseCodes : Obligations.FaultCauseCodes := by
  refine ⟨rfl, rfl, rfl, rfl, rfl, rfl, fun c => by cases c <;> decide, fun s hinv => ?_⟩
  rw [faultCause_code_eq_zero_iff]
  constructor
  · exact fun hnone hfault => faultCause_ne_none_of_explained (hinv.fault_explained hfault) hnone
  · exact fun hok => (hinv.fault_registers_clear hok).1

end Sys2Proof.Machine
end

section
/-! PROOFS. Every instruction and step has a next state (R169 of 70_reset_and_hazards.md), so a run of `n` steps continues one of
`k ≤ n`; and the transitions of the control FSM into and out of LOAD (R39, R81, R160). -/

namespace Sys2Proof.Machine

/-! ## Every instruction and every step has a next state (R169) -/

theorem withRegister_has_next {act : Fin 8 → Result} (h : ∀ i, ∃ t, act i = .next t) (x : Byte) (s : State) :
    ∃ t, withRegister x s act = .next t := by
  by_cases hx : x.toNat < 8
  · rw [withRegister_of_index (i := ⟨x.toNat, hx⟩) rfl]
    exact h _
  · exact ⟨_, withRegister_of_bad (not_lt.1 hx) s act⟩

theorem execAlu_has_next (op : AluOp) (opcode a b : Byte) (s : State) : ∃ t, execAlu op opcode a b s = .next t := by
  refine withRegister_has_next (fun i => withRegister_has_next (fun j => ?_) b s) a s
  cases aluEvaluate op (s.reg i) (s.reg j) with
  | some r => exact ⟨_, rfl⟩
  | none => exact ⟨_, rfl⟩

theorem exec_has_next (i : Instr) (s : State) : ∃ t, exec i s = .next t := by
  cases i with
  | hlt | ret => exact ⟨_, rfl⟩
  | push a | pop a | prn a | call a | jmp a | ldi a => exact withRegister_has_next (fun _ => ⟨_, rfl⟩) a s
  | add a b => exact execAlu_has_next .add opAdd a b s
  | sub a b => exact execAlu_has_next .sub opSub a b s
  | mul a b => exact execAlu_has_next .mul opMul a b s
  | div a b => exact execAlu_has_next .div opDiv a b s

theorem step_has_next (s : State) : ∃ t, step s = .next t := by
  by_cases hrun : s.runState = .running
  · cases hd : s.fetch.decode with
    | ok i =>
      rw [step_of_decoded hrun hd]
      exact exec_has_next i s
    | error r => exact ⟨_, step_of_rejected hrun hd⟩
  · exact ⟨s, step_of_not_running hrun⟩

/-- A Running machine's step completes the instruction at `PC` or ends in Faulted. -/
theorem step_completes_or_faults {s t : State} (hrun : s.runState = .running) (h : step s = .next t) :
    (∃ i, s.fetch.decode = .ok i ∧ exec i s = .next t) ∨ t.runState = .faulted := by
  rcases step_cases_of_running hrun h with ⟨i, hd, -, hexec⟩ | ⟨r, -, rfl⟩
  · exact .inl ⟨i, hd, hexec⟩
  · obtain ⟨c, x, hraise⟩ := raiseReject_eq_raise s r
    exact .inr (by rw [hraise, raise_runState])

/-! ## A run continues each of its beginnings -/

theorem run_has_next (n : Nat) (s : State) : ∃ t, Sys2Proof.core.run n s = .next t := by
  induction n generalizing s with
  | zero => exact ⟨s, rfl⟩
  | succ n ih =>
    obtain ⟨u, hstep⟩ := step_has_next s
    rw [run_succ_of_step hstep]
    exact ih u

theorem run_add_of_run {k : Nat} {s u : State} (h : Sys2Proof.core.run k s = .next u) (d : Nat) :
    Sys2Proof.core.run (k + d) s = Sys2Proof.core.run d u := by
  induction k generalizing s with
  | zero =>
    cases h
    rw [Nat.zero_add]
  | succ k ih =>
    obtain ⟨v, hstep⟩ := step_has_next s
    rw [Nat.succ_add, run_succ_of_step hstep]
    exact ih ((run_succ_of_step hstep k).symm.trans h)

/-- A state at rest stays as it is (R79), so a run that is Running at its end was Running all along. -/
theorem running_of_run_running {n k : Nat} {s t u : State} (hk : k ≤ n) (ht : Sys2Proof.core.run n s = .next t)
    (hrun : t.runState = .running) (hu : Sys2Proof.core.run k s = .next u) : u.runState = .running := by
  by_contra hrest
  obtain ⟨d, rfl⟩ := Nat.exists_eq_add_of_le hk
  rw [run_add_of_run hu, run_of_not_running hrest] at ht
  cases ht
  exact hrest hrun

/-- Settles O43: `exec_has_next`, `step_has_next` and `run_has_next` give the next states, `step_completes_or_faults` says what a
Running step is, and `running_of_run_running` rules out a pause. -/
theorem everyStepHasANextState : Obligations.EveryStepHasANextState := by
  refine ⟨exec_has_next, fun s hrun => ?_, run_has_next, fun n k s t u hk ht hrun hu => ?_⟩
  · obtain ⟨t, hstep⟩ := step_has_next s
    exact ⟨t, hstep, step_completes_or_faults hrun hstep⟩
  · exact running_of_run_running hk ht hrun hu

/-! ## Reset asserted and released (R39, R81, R160) -/

@[simp] theorem assertReset_assertReset (s : State) : s.assertReset.assertReset = s.assertReset := rfl

section Reset

variable {m : Fsm} {inp : FsmInputs}

/-- With reset asserted and no write of the Loader, every phase goes to LOAD with the reset machine. -/
theorem advance_of_reset (hrst : inp.rst = true) (hw : inp.loader = none) :
    m.advance inp = { m with phase := .load, arch := m.arch.assertReset } := by
  simp [Fsm.advance, Fsm.holdReset, hrst, hw]

theorem advance_phase_of_load_write {w : LoaderWrite} (hrst : inp.rst = true) (hw : inp.loader = some w)
    (h : m.phase = .load) : (m.advance inp).phase = .load := by
  simp [Fsm.advance, Fsm.holdReset, hrst, hw, h]

/-- Releasing reset leaves LOAD for FETCH0, and a write of the Loader is not taken. -/
theorem advance_of_load_release (hrst : inp.rst = false) (h : m.phase = .load) :
    m.advance inp = { m with phase := .fetch0, arch := m.arch.assertReset } := by
  simp [Fsm.advance, hrst, h]

end Reset

/-- Settles O50: reset asserted by `advance_of_reset` and released by `advance_of_load_release`, with the register file of
`afterReset_reg`; the Loader's cell by `load_store`; the end phases by `advance_of_end_phase`. -/
theorem resetAtAnyTimeKeepsMemory : Obligations.ResetAtAnyTimeKeepsMemory := by
  intro m w x held released
  have hheld : held = { m with phase := .load, arch := m.arch.assertReset } := advance_of_reset rfl rfl
  have hload : held.phase = .load := by rw [hheld]
  have hreleased : released = { held with phase := .fetch0, arch := held.arch.assertReset } :=
    advance_of_load_release rfl hload
  have harch : released.arch = State.afterReset m.arch.mem := by rw [hreleased, hheld]; rfl
  rw [harch]
  refine ⟨hload, by rw [hreleased], fun k hk => (afterReset_reg _ k).trans (if_neg hk), afterReset_sp _, rfl, rfl, rfl,
    rfl, rfl, fun a _ => afterReset_load _ a, advance_phase_of_load_write rfl rfl hload, fun a => ?_,
    advance_of_end_phase rfl⟩
  have hheldArch : held.arch.assertReset = held.arch := by rw [hheld, assertReset_assertReset]
  rw [advance_of_load_write rfl rfl hload, load_store, hheldArch]

end Sys2Proof.Machine
end

section
/-! PROOFS. The encoding of an instruction and the bytes at `PC` (30_encoding.md): decoding inverts encoding, the unused operand
candidates (R46), the decoder's answers counted, and an instruction placed from outside (log 8). -/

namespace Sys2Proof.Machine

/-! ## The encoding of an instruction, in memory (R34, R50) -/

/-- An instruction has at most two operand bytes (R50). -/
theorem length_encode_le (i : Instr) : (encode i).length ≤ 3 := by
  cases i <;> simp [encode, Instr.operands]

/-- An instruction with the operand bytes it uses replaced by candidates (R46). -/
def withOperands (opa opb : Byte) : Instr → Instr
  | .hlt => .hlt
  | .ret => .ret
  | .push _ => .push opa
  | .pop _ => .pop opa
  | .prn _ => .prn opa
  | .call _ => .call opa
  | .jmp _ => .jmp opa
  | .ldi _ _ => .ldi opa opb
  | .add _ _ => .add opa opb
  | .sub _ _ => .sub opa opb
  | .mul _ _ => .mul opa opb
  | .div _ _ => .div opa opb

/-- An opcode byte decodes to its instruction, with the candidates as operands. -/
theorem decode_opcode (i : Instr) (opa opb : Byte) :
    decode i.opcode opa opb = .ok (withOperands opa opb i) := by
  cases i
  all_goals simp only [Instr.opcode]; rfl

theorem encode_withOperands_prefix (i : Instr) (opa opb : Byte) :
    encode (withOperands opa opb i) <+: [i.opcode, opa, opb] := by
  cases i <;> simp [withOperands, encode, Instr.opcode, Instr.operands]

/-- Bytes that begin with the encoding of an instruction hold its opcode and its operands. -/
theorem withOperands_of_encode_prefix {i : Instr} {ir opa opb : Byte} (h : encode i <+: [ir, opa, opb]) :
    i.opcode = ir ∧ withOperands opa opb i = i := by
  cases i <;> simp_all [withOperands, encode, Instr.opcode, Instr.operands]

/-- Three bytes decode to an instruction just when they begin with its encoding. -/
theorem decode_eq_ok_iff (ir opa opb : Byte) (i : Instr) :
    decode ir opa opb = .ok i ↔ encode i <+: [ir, opa, opb] := by
  constructor
  · intro h
    obtain rfl := opcode_of_decode h
    have hself : withOperands opa opb i = i := Except.ok.inj ((decode_opcode i opa opb).symm.trans h)
    have hprefix := encode_withOperands_prefix i opa opb
    rwa [hself] at hprefix
  · intro h
    obtain ⟨rfl, hself⟩ := withOperands_of_encode_prefix h
    rw [decode_opcode, hself]

/-- The fetched bytes, by their offset from `PC`. -/
theorem fetched_getElem? (s : State) {k : Nat} (hk : k < 3) :
    [s.fetch.ir, s.fetch.opa, s.fetch.opb][k]? = some (s.load (s.pc + BitVec.ofNat 8 k)) := by
  match k with
  | 0 => exact congrArg (fun a => some (s.load a)) (BitVec.add_zero s.pc).symm
  | 1 | 2 => rfl

/-- Settles O28: by `decode_eq_ok_iff`, and a list of at most three bytes is a prefix of the fetched ones when they agree at each
offset. -/
theorem decodeInvertsEncodeInMemory : Obligations.DecodeInvertsEncodeInMemory := by
  intro s i
  rw [Fetched.decode, decode_eq_ok_iff, List.prefix_iff_getElem?]
  have hlen := length_encode_le i
  constructor
  · intro h k v hv
    obtain ⟨hk, rfl⟩ := List.getElem?_eq_some_iff.1 hv
    have := h k hk
    rw [fetched_getElem? s (by omega)] at this
    exact Option.some.inj this
  · intro h k hk
    rw [fetched_getElem? s (by omega), h k _ (List.getElem?_eq_getElem hk)]

/-- Settles O30. -/
theorem stepRunsTheDecodedInstruction : Obligations.StepRunsTheDecodedInstruction :=
  fun _ _ => step_of_decoded

/-- Settles O31: the bytes decode to the instruction by O28. -/
theorem stepRunsTheEncodedInstruction : Obligations.StepRunsTheEncodedInstruction :=
  fun s i hrun hbytes => step_of_decoded hrun ((decodeInvertsEncodeInMemory s i).2 hbytes)

/-! ## Unused operand candidates (R46) -/

theorem decode_of_illegal {ir : Byte} (ha : ir ∉ aluBytes) (hh : ir ∉ handlerBytes) (opa opb : Byte) :
    decode ir opa opb = .error (if ir.getLsbD 5 then .unsupportedAluOperation ir else .unknownOpcode ir) := by
  cases h5 : ir.getLsbD 5 with
  | true => exact decode_unsupportedAluOperation ha h5 opa opb
  | false => exact decode_unknownOpcode hh h5 opa opb

theorem legal_of_no_operand : ∀ ir ∈ aluBytes ++ handlerBytes, ir.toNat / 64 = 0 → ir ∈ [opHlt, opRet] := by decide

theorem legal_of_one_operand :
    ∀ ir ∈ aluBytes ++ handlerBytes, ir.toNat / 64 = 1 → ir ∈ [opPush, opPop, opPrn, opCall, opJmp] := by decide

/-- Settles O29: an illegal byte is rejected whatever the operands are; a legal one with the given count is one of a few. -/
theorem unusedOperandBytesAreIgnored : Obligations.UnusedOperandBytesAreIgnored := by
  intro ir a b a' b'
  by_cases hlegal : ir ∈ aluBytes ++ handlerBytes
  · refine ⟨fun hcount => ?_, fun hcount => ?_⟩
    · have hir := legal_of_no_operand ir hlegal hcount
      simp only [List.mem_cons, List.not_mem_nil, or_false] at hir
      rcases hir with rfl | rfl <;> rfl
    · have hir := legal_of_one_operand ir hlegal hcount
      simp only [List.mem_cons, List.not_mem_nil, or_false] at hir
      rcases hir with rfl | rfl | rfl | rfl | rfl <;> rfl
  · obtain ⟨ha, hh⟩ : ir ∉ aluBytes ∧ ir ∉ handlerBytes := by simpa using hlegal
    simp only [decode_of_illegal ha hh, implies_true, and_self]

/-! ## Counts and samples -/

/-- A count of the decoder's answers, in halves that `decide` can evaluate. -/
theorem countP_decode_eq_halves (p : Except Reject Instr → Bool) :
    ((List.range 256).map fun n => decode (BitVec.ofNat 8 n) 0x00 0x00).countP p =
      ((List.range 128).map (BitVec.ofNat 8)).countP (fun ir => p (decode ir 0x00 0x00)) +
        ((List.range' 128 128).map (BitVec.ofNat 8)).countP (fun ir => p (decode ir 0x00 0x00)) := by
  rw [← countP_bytes_eq_halves, List.countP_map, List.countP_map]
  rfl

/-- Settles O26, by evaluation in halves. -/
theorem opcodeFatesAreCounted : Obligations.OpcodeFatesAreCounted := by
  refine ⟨?_, ?_, ?_⟩
  all_goals rw [countP_decode_eq_halves]; decide

/-- Settles O27, by evaluation. -/
theorem sampleWordsDecodeRight : Obligations.SampleWordsDecodeRight :=
  ⟨rfl, rfl, rfl, rfl, rfl, rfl, rfl, rfl, rfl, rfl, rfl, rfl, rfl⟩

/-! ## An instruction placed from outside (log 8) -/

@[simp] theorem withFetchWord_pc (s : State) (nbits w : Nat) : (s.withFetchWord nbits w).pc = s.pc := rfl

theorem load_withFetchWord (s : State) (nbits w : Nat) (x : Byte) :
    (s.withFetchWord nbits w).load x =
      (((s.store s.pc (tableByte nbits w 0)).store (s.pc + 1) (tableByte nbits w 1)).store (s.pc + 2)
        (tableByte nbits w 2)).load x := rfl

/-- The three addresses of a fetch are distinct, so a placed word is fetched as its three bytes. -/
theorem withFetchWord_fetch (s : State) (nbits w : Nat) :
    (s.withFetchWord nbits w).fetch = ⟨tableByte nbits w 0, tableByte nbits w 1, tableByte nbits w 2⟩ := by
  have h01 : s.pc ≠ s.pc + 1 := by bv_omega
  have h02 : s.pc ≠ s.pc + 2 := by bv_omega
  have h12 : s.pc + 1 ≠ s.pc + 2 := by bv_omega
  rw [State.fetch, withFetchWord_pc]
  simp only [load_withFetchWord, load_store, if_neg h01, if_neg h02, if_neg h12, if_true]

/-- Settles O32: the word is fetched by `withFetchWord_fetch`, and the placing leaves the machine Running. -/
theorem placedWordRunsNext : Obligations.PlacedWordRunsNext := by
  intro s nbits w i hword
  have hdecode : (s.withFetchWord nbits w).fetch.decode = .ok i := by
    rw [withFetchWord_fetch]
    cases hd : decode (tableByte nbits w 0) (tableByte nbits w 1) (tableByte nbits w 2) with
    | ok j =>
      rw [decodeTableWord, hd] at hword
      cases hword
      exact hd
    | error r =>
      rw [decodeTableWord, hd] at hword
      cases hword
  exact step_of_decoded rfl hdecode

end Sys2Proof.Machine
end

section
/-! PROOFS. Memory as data (log 1), and what every instruction does to memory and `OUT` (R22, R36, R38) and to the registers
(R13): its effect, its frame, and what it does not read. -/

namespace Sys2Proof.Machine

/-! ## Canonical memory is determined by its reads (log 1) -/

theorem wfFrom_cons_iff (lo : Nat) (c : Host.Cell) (m : Memory) :
    Memory.wfFrom lo (c :: m) = true ↔
      lo ≤ c.1 ∧ c.1 < 256 ∧ c.2 ≠ Memory.unlisted c.1 ∧ Memory.wfFrom (c.1 + 1) m = true := by
  simp only [Memory.wfFrom, Bool.and_eq_true, decide_eq_true_eq, and_assoc]

@[simp] theorem lookup_cons_self (c : Host.Cell) (m : Memory) : Memory.lookup c.1 (c :: m) = c.2 := if_pos rfl

theorem lookup_cons_of_ne {c : Host.Cell} {x : Nat} (h : c.1 ≠ x) (m : Memory) :
    Memory.lookup x (c :: m) = Memory.lookup x m := if_neg h

/-- A canonical memory lists no cell below its first one. -/
theorem lookup_of_lt {lo x : Nat} {m : Memory} (hm : Memory.wfFrom lo m = true) (hx : x < lo) :
    Memory.lookup x m = Memory.unlisted x := by
  induction m generalizing lo with
  | nil => rfl
  | cons c m ih =>
    obtain ⟨hlo, -, -, htail⟩ := (wfFrom_cons_iff lo c m).1 hm
    rw [lookup_cons_of_ne (by omega), ih htail (by omega)]

/-- A memory that reads as a canonical one lists its first cell: it cannot begin above it. -/
theorem le_of_lookup_eq {lo : Nat} {c : Host.Cell} {m n : Memory} (hm : Memory.wfFrom lo (c :: m) = true)
    (hn : Memory.wfFrom lo n = true) (h : Memory.lookup c.1 (c :: m) = Memory.lookup c.1 n) :
    ∃ d n', n = d :: n' ∧ d.1 ≤ c.1 := by
  obtain ⟨-, -, hlisted, -⟩ := (wfFrom_cons_iff lo c m).1 hm
  rw [lookup_cons_self] at h
  cases n with
  | nil => exact absurd h hlisted
  | cons d n' =>
    refine ⟨d, n', rfl, not_lt.1 fun hlt => hlisted ?_⟩
    obtain ⟨-, hd, hdl, htail⟩ := (wfFrom_cons_iff lo d n').1 hn
    exact h.trans (lookup_of_lt ((wfFrom_cons_iff d.1 d n').2 ⟨le_rfl, hd, hdl, htail⟩) hlt)

theorem eq_of_lookup_eq {lo : Nat} {m n : Memory} (hm : Memory.wfFrom lo m = true) (hn : Memory.wfFrom lo n = true)
    (h : ∀ x < 256, Memory.lookup x m = Memory.lookup x n) : m = n := by
  induction m generalizing lo n with
  | nil =>
    cases n with
    | nil => rfl
    | cons d n =>
      obtain ⟨-, hd, -, -⟩ := (wfFrom_cons_iff lo d n).1 hn
      obtain ⟨_, _, hnil, -⟩ := le_of_lookup_eq hn hm (h d.1 hd).symm
      cases hnil
  | cons c m ih =>
    obtain ⟨-, hc, -, hmtail⟩ := (wfFrom_cons_iff lo c m).1 hm
    obtain ⟨d, n, rfl, hdc⟩ := le_of_lookup_eq hm hn (h c.1 hc)
    obtain ⟨-, hd, -, hntail⟩ := (wfFrom_cons_iff lo d n).1 hn
    obtain ⟨_, _, hcons, hcd⟩ := le_of_lookup_eq hn hm (h d.1 hd).symm
    cases hcons
    have haddr : c.1 = d.1 := le_antisymm hcd hdc
    have hhead : c = d := by
      refine Prod.ext haddr ?_
      rw [← lookup_cons_self c m, h c.1 hc, haddr, lookup_cons_self]
    subst hhead
    refine congrArg (c :: ·) (ih hmtail hntail fun x hx => ?_)
    by_cases hxc : c.1 = x
    · subst hxc
      rw [lookup_of_lt hmtail (Nat.lt_succ_self _), lookup_of_lt hntail (Nat.lt_succ_self _)]
    · rw [← lookup_cons_of_ne hxc m, h x hx, lookup_cons_of_ne hxc n]

/-- Settles O21, by `eq_of_lookup_eq`: every cell number below 256 is an address. -/
theorem canonicalMemoriesAreDeterminedByReads : Obligations.CanonicalMemoriesAreDeterminedByReads := by
  intro m n hm hn hread
  refine eq_of_lookup_eq hm hn fun x hx => ?_
  have haddr := hread (BitVec.ofNat 8 x)
  rwa [Memory.read, Memory.read, BitVec.toNat_ofNat, Nat.mod_eq_of_lt hx] at haddr

/-! ## Memory at reset and boot (R162, log 1) -/

/-- Filling with what an unlisted cell reads as lists nothing. -/
theorem fill_unlisted (n : Nat) : Memory.fill (fun a => Memory.unlisted a.toNat) [] n = [] := by
  induction n with
  | zero => rfl
  | succ n ih => rw [Memory.fill, ih, Memory.write, if_pos rfl, Memory.erase]

/-- Settles O49: the image that is 0x00 everywhere lists nothing, by `fill_unlisted`. -/
theorem resetStateTakesZeroMemory : Obligations.ResetStateTakesZeroMemory := by
  refine ⟨?_, fun _ => rfl⟩
  rw [State.reset, State.resetWith, Memory.ofImage]
  exact congrArg State.afterReset (fill_unlisted 256).symm

/-- Settles O53, by `read_ofImage`. -/
theorem bootLoadsTheProgramFromZero : Obligations.BootLoadsTheProgramFromZero := by
  intro program a
  refine ⟨?_, rfl⟩
  rw [State.boot, State.resetWith, afterReset_load, read_ofImage, imageOver, Memory.unlisted]

/-! ## What an instruction does to memory and `OUT`: its port access and its emitted byte (R36, R38, R102) -/

theorem regIndex?_of_index {x : Byte} {i : Fin 8} (h : x.toNat = i.val) : regIndex? x = some i :=
  (regIndex?_eq_some_iff x i).2 h

theorem regIndex?_of_bad {x : Byte} (h : 8 ≤ x.toNat) : regIndex? x = none := (regIndex?_eq_none_iff x).2 h

theorem execAlu_keeps_mem {op : AluOp} {opcode a b : Byte} {s t : State}
    (h : execAlu op opcode a b s = .next t) : t.mem = s.mem := by
  rcases execAlu_cases h with ⟨-, rfl⟩ | ⟨-, -, rfl⟩ | ⟨_, _, -, -, -, rfl⟩ | ⟨_, _, _, -, -, -, rfl⟩
  · exact raise_mem ..
  · exact raise_mem ..
  · exact raise_mem ..
  · rw [advancePast_mem, setReg_mem]

/-- Memory after an instruction is memory after its one data access. -/
theorem exec_mem {i : Instr} {s t : State} (h : exec i s = .next t) :
    t.mem = Memory.afterAccess s.mem (dataAccess i s) := by
  cases i with
  | hlt | ret =>
    cases h
    rfl
  | prn | jmp | ldi =>
    rcases withRegister_cases h with ⟨r, -, hnext⟩ | ⟨-, rfl⟩
    · cases hnext
      rfl
    · exact raise_mem ..
  | push | pop | call =>
    rcases withRegister_cases h with ⟨r, hr, hnext⟩ | ⟨hbad, rfl⟩
    · cases hnext
      rw [dataAccess, regIndex?_of_index hr]
      rfl
    · rw [dataAccess, regIndex?_of_bad hbad]
      rfl
  | add => exact execAlu_keeps_mem (op := .add) h
  | sub => exact execAlu_keeps_mem (op := .sub) h
  | mul => exact execAlu_keeps_mem (op := .mul) h
  | div => exact execAlu_keeps_mem (op := .div) h

theorem emitted_of_ne_prn {i : Instr} (hi : ∀ x : Byte, i ≠ .prn x) (s : State) : emitted i s = none := by
  cases i with
  | prn a => exact absurd rfl (hi a)
  | hlt | ret | push | pop | call | jmp | ldi | add | sub | mul | div => rfl

/-- `OUT` after an instruction is `OUT` before it with its emitted byte. -/
theorem exec_out {i : Instr} {s t : State} (h : exec i s = .next t) : t.out = s.out ++ (emitted i s).toList := by
  by_cases hi : ∀ x : Byte, i ≠ .prn x
  · rw [exec_keeps_out_of_ne_prn hi h, emitted_of_ne_prn hi, Option.toList_none, List.append_nil]
  · obtain ⟨a, rfl⟩ : ∃ a, i = .prn a := by simpa using hi
    rcases withRegister_cases h with ⟨r, hr, hnext⟩ | ⟨hbad, rfl⟩
    · cases hnext
      rw [emitted, regIndex?_of_index hr, advancePast_out, emit_out, Option.map_some, Option.toList_some]
    · rw [emitted, regIndex?_of_bad hbad, raise_out, Option.map_none, Option.toList_none, List.append_nil]

/-- Settles O22, by `exec_mem` and `exec_out`. -/
theorem executionMatchesThePorts : Obligations.ExecutionMatchesThePorts := by
  intro i s t h
  refine ⟨fun x => ?_, exec_out h⟩
  rw [State.load, exec_mem h]

/-! ## `OUT` is read by no step (R22) -/

theorem execAlu_withOut {op : AluOp} {opcode a b : Byte} {s t : State} (o : List Byte)
    (h : execAlu op opcode a b s = .next t) : execAlu op opcode a b (s.withOut o) = .next (t.withOut o) := by
  rcases execAlu_cases h with ⟨ha, rfl⟩ | ⟨ha, hb, rfl⟩ | ⟨i, j, ha, hb, hv, rfl⟩ | ⟨i, j, r, ha, hb, hv, rfl⟩
  · exact withRegister_of_bad ha (s.withOut o) _
  · exact (withRegister_of_index (i := ⟨a.toNat, ha⟩) rfl (s.withOut o) _).trans (withRegister_of_bad hb (s.withOut o) _)
  · exact execAlu_of_no_result (s := s.withOut o) ha hb hv opcode
  · exact execAlu_of_result (s := s.withOut o) ha hb hv opcode

/-- No instruction reads `OUT`: with another one, the same byte is emitted and all else is the same. -/
theorem exec_withOut {i : Instr} {s t : State} (o : List Byte) (h : exec i s = .next t) :
    exec i (s.withOut o) = .next (t.withOut (o ++ (emitted i s).toList)) := by
  by_cases hi : ∀ x : Byte, i ≠ .prn x
  · rw [emitted_of_ne_prn hi, Option.toList_none, List.append_nil]
    cases i with
    | prn a => exact absurd rfl (hi a)
    | hlt | ret =>
      cases h
      rfl
    | push | pop | call | jmp | ldi =>
      rcases withRegister_cases h with ⟨r, hr, hnext⟩ | ⟨hbad, rfl⟩
      · cases hnext
        exact withRegister_of_index hr (s.withOut o) _
      · exact withRegister_of_bad hbad (s.withOut o) _
    | add => exact execAlu_withOut (op := .add) o h
    | sub => exact execAlu_withOut (op := .sub) o h
    | mul => exact execAlu_withOut (op := .mul) o h
    | div => exact execAlu_withOut (op := .div) o h
  · obtain ⟨a, rfl⟩ : ∃ a, i = .prn a := by simpa using hi
    rcases withRegister_cases h with ⟨r, hr, hnext⟩ | ⟨hbad, rfl⟩
    · cases hnext
      rw [emitted, regIndex?_of_index hr]
      exact withRegister_of_index hr (s.withOut o) _
    · rw [emitted, regIndex?_of_bad hbad, Option.map_none, Option.toList_none, List.append_nil]
      exact withRegister_of_bad hbad (s.withOut o) _

theorem length_emitted_le (i : Instr) (s : State) : (emitted i s).toList.length ≤ 1 := by
  cases emitted i s <;> simp

/-- A byte is emitted only by PRN on a register, and is that register. -/
theorem emitted_eq_some {i : Instr} {s : State} {v : Byte} (h : emitted i s = some v) :
    ∃ (a : Byte) (r : Fin 8), i = .prn a ∧ a.toNat = r.val ∧ v = s.reg r := by
  cases i with
  | prn a =>
    obtain ⟨r, hr, rfl⟩ := Option.map_eq_some_iff.1 h
    exact ⟨a, r, rfl, (regIndex?_eq_some_iff a r).1 hr, rfl⟩
  | hlt | ret | push | pop | call | jmp | ldi | add | sub | mul | div => cases h

/-- A fetched instruction has the fetched bytes as its operands. -/
theorem withOperands_of_fetch_decode {s : State} {i : Instr} (h : s.fetch.decode = .ok i) :
    i.opcode = s.fetch.ir ∧ withOperands s.fetch.opa s.fetch.opb i = i :=
  withOperands_of_encode_prefix ((decode_eq_ok_iff _ _ _ i).1 h)

/-- What a step adds to `OUT`, and that it adds the same to another `OUT`. -/
theorem step_out {s t : State} (o : List Byte) (h : step s = .next t) :
    ∃ added : List Byte, t.out = s.out ++ added ∧ added.length ≤ 1 ∧
      (added ≠ [] → s.fetch.ir = 0x47 ∧ ∃ i : Fin 8, s.fetch.opa.toNat = i.val ∧ added = [s.reg i]) ∧
      step (s.withOut o) = .next (t.withOut (o ++ added)) := by
  by_cases hrun : s.runState = .running
  · rcases step_cases_of_running hrun h with ⟨i, hd, hir, hexec⟩ | ⟨r, hd, rfl⟩
    · refine ⟨(emitted i s).toList, exec_out hexec, length_emitted_le i s, fun hne => ?_, ?_⟩
      · have hsome : emitted i s ≠ none := fun hnone => hne (by rw [hnone, Option.toList_none])
        obtain ⟨v, hv⟩ := Option.ne_none_iff_exists'.1 hsome
        obtain ⟨a, r, rfl, ha, rfl⟩ := emitted_eq_some hv
        obtain ⟨-, hself⟩ := withOperands_of_fetch_decode hd
        have hopa : s.fetch.opa = a := Instr.prn.inj hself
        exact ⟨hir.symm, r, by rw [hopa, ha], by rw [hv, Option.toList_some]⟩
      · exact (step_of_decoded (s := s.withOut o) hrun hd).trans (exec_withOut o hexec)
    · refine ⟨[], ?_, Nat.zero_le 1, fun hne => absurd rfl hne, ?_⟩
      · obtain ⟨c, x, hraise⟩ := raiseReject_eq_raise s r
        rw [hraise, raise_out, List.append_nil]
      · rw [step_of_rejected (s := s.withOut o) hrun hd, List.append_nil]
        cases r <;> rfl
  · cases (step_of_not_running hrun).symm.trans h
    refine ⟨[], (List.append_nil _).symm, Nat.zero_le 1, fun hne => absurd rfl hne, ?_⟩
    rw [List.append_nil]
    exact step_of_not_running (s := s.withOut o) hrun

theorem out_prefix_of_run {n : Nat} {s t : State} (h : Sys2Proof.core.run n s = .next t) : s.out <+: t.out := by
  induction n generalizing s with
  | zero =>
    cases h
    exact List.prefix_rfl
  | succ n ih =>
    obtain ⟨u, hstep⟩ := step_has_next s
    obtain ⟨added, hout, -⟩ := step_out [] hstep
    exact (hout ▸ List.prefix_append s.out added).trans (ih ((run_succ_of_step hstep n).symm.trans h))

/-- Settles O35: one step by `step_out`, a run by induction on its steps. -/
theorem outputIsAppendOnlyAndUnread : Obligations.OutputIsAppendOnlyAndUnread :=
  ⟨fun _ _ o => step_out o, fun _ _ _ => out_prefix_of_run⟩

/-! ## The registers an instruction reads and writes (R13) -/

/-- Two states that agree on `PC`, memory, `OUT`, the status registers and the listed registers. -/
structure AgreeOn (ks : List (Fin 8)) (s₁ s₂ : State) : Prop where
  pc : s₁.pc = s₂.pc
  mem : s₁.mem = s₂.mem
  out : s₁.out = s₂.out
  status : SameStatus s₁ s₂
  regs : ∀ k ∈ ks, s₁.reg k = s₂.reg k

namespace AgreeOn

variable {ks ks' : List (Fin 8)} {s₁ s₂ : State}

theorem mono (h : AgreeOn ks s₁ s₂) (hks : ks' ⊆ ks) : AgreeOn ks' s₁ s₂ :=
  ⟨h.pc, h.mem, h.out, h.status, fun k hk => h.regs k (hks hk)⟩

theorem load (h : AgreeOn ks s₁ s₂) (a : Byte) : s₁.load a = s₂.load a := by rw [State.load, State.load, h.mem]

theorem sp (h : AgreeOn ks s₁ s₂) (h7 : 7 ∈ ks) : s₁.sp = s₂.sp := h.regs 7 h7

theorem setReg (h : AgreeOn ks s₁ s₂) (i : Fin 8) {v w : Byte} (hv : v = w) :
    AgreeOn (i :: ks) (s₁.setReg i v) (s₂.setReg i w) := by
  subst hv
  refine ⟨h.pc, h.mem, h.out, h.status, fun k hk => ?_⟩
  rw [reg_setReg, reg_setReg]
  split
  · rfl
  · next hne => exact h.regs k (List.mem_of_ne_of_mem hne hk)

theorem setPc (h : AgreeOn ks s₁ s₂) {v w : Byte} (hv : v = w) : AgreeOn ks (s₁.setPc v) (s₂.setPc w) :=
  ⟨hv, h.mem, h.out, h.status, h.regs⟩

theorem advancePast (h : AgreeOn ks s₁ s₂) (op : Byte) : AgreeOn ks (s₁.advancePast op) (s₂.advancePast op) :=
  h.setPc (by rw [h.pc])

theorem store (h : AgreeOn ks s₁ s₂) {a b v w : Byte} (ha : a = b) (hv : v = w) :
    AgreeOn ks (s₁.store a v) (s₂.store b w) :=
  ⟨h.pc, by rw [store_mem, store_mem, h.mem, ha, hv], h.out, h.status, h.regs⟩

theorem emit (h : AgreeOn ks s₁ s₂) {v w : Byte} (hv : v = w) : AgreeOn ks (s₁.emit v) (s₂.emit w) :=
  ⟨h.pc, h.mem, by rw [emit_out, emit_out, h.out, hv], h.status, h.regs⟩

theorem raise (h : AgreeOn ks s₁ s₂) (c : FaultCause) (x : Byte) : AgreeOn ks (s₁.raise c x) (s₂.raise c x) :=
  ⟨h.pc, h.mem, h.out, ⟨rfl, rfl, rfl⟩, h.regs⟩

theorem halt (h : AgreeOn ks s₁ s₂) : AgreeOn ks s₁.halt s₂.halt :=
  ⟨h.pc, h.mem, h.out, ⟨rfl, h.status.2⟩, h.regs⟩

/-- The stack pointer is written, and agrees if it did before. -/
theorem incSp (h : AgreeOn ks s₁ s₂) (h7 : 7 ∈ ks) : AgreeOn ks s₁.incSp s₂.incSp :=
  (h.setReg spIndex (by rw [h.sp h7])).mono (List.subset_cons_self _ _)

theorem pushBy (h : AgreeOn ks s₁ s₂) (h7 : 7 ∈ ks) {f : State → Byte}
    (hf : ∀ {u₁ u₂ : State}, AgreeOn ks u₁ u₂ → f u₁ = f u₂) : AgreeOn ks (s₁.pushBy f) (s₂.pushBy f) := by
  have hdec : AgreeOn ks s₁.decSp s₂.decSp :=
    (h.setReg spIndex (by rw [h.sp h7])).mono (List.subset_cons_self _ _)
  exact hdec.store (hdec.sp h7) (hf hdec)

/-- A register operand names the same register in both states, or raises the same fault in both. -/
theorem withRegister {x : Byte} {t₁ t₂ : State} {act₁ act₂ : Fin 8 → Result} (h : AgreeOn ks s₁ s₂)
    (h₁ : withRegister x s₁ act₁ = .next t₁) (h₂ : withRegister x s₂ act₂ = .next t₂)
    (hbad : regIndex? x = none → ks' ⊆ ks)
    (hact : ∀ i, regIndex? x = some i → act₁ i = .next t₁ → act₂ i = .next t₂ → AgreeOn ks' t₁ t₂) :
    AgreeOn ks' t₁ t₂ := by
  rcases withRegister_cases h₁ with ⟨i, hi, hnext⟩ | ⟨hx, rfl⟩
  · rw [withRegister_of_index hi] at h₂
    exact hact i (regIndex?_of_index hi) hnext h₂
  · rw [withRegister_of_bad hx] at h₂
    cases h₂
    exact (h.mono (hbad (regIndex?_of_bad hx))).raise _ _

end AgreeOn

theorem agreeOn_execAlu {op : AluOp} {opcode a b : Byte} {s₁ s₂ t₁ t₂ : State}
    (h : AgreeOn ((regIndex? a).toList ++ (regIndex? b).toList) s₁ s₂) (h₁ : execAlu op opcode a b s₁ = .next t₁)
    (h₂ : execAlu op opcode a b s₂ = .next t₂) : AgreeOn (regIndex? a).toList t₁ t₂ := by
  have hleft : (regIndex? a).toList ⊆ (regIndex? a).toList ++ (regIndex? b).toList := List.subset_append_left _ _
  refine h.withRegister h₁ h₂ (fun _ => hleft) fun i hi e₁ e₂ =>
    h.withRegister e₁ e₂ (fun _ => hleft) fun j hj e₁ e₂ => ?_
  have hva : s₁.reg i = s₂.reg i := h.regs i (by simp [hi])
  have hvb : s₁.reg j = s₂.reg j := h.regs j (by simp [hj])
  rw [hva, hvb] at e₁
  cases hv : aluEvaluate op (s₂.reg i) (s₂.reg j) with
  | none =>
    rw [hv] at e₁ e₂
    cases e₁
    cases e₂
    exact (h.mono hleft).raise _ _
  | some r =>
    rw [hv] at e₁ e₂
    cases e₁
    cases e₂
    rw [hi]
    exact ((h.setReg i rfl).advancePast _).mono (List.cons_subset_cons i (List.nil_subset _))

/-- What an instruction does depends on the registers of the "reads" column only. -/
theorem agreeOn_exec {i : Instr} {s₁ s₂ t₁ t₂ : State} (h : AgreeOn (registersRead i) s₁ s₂)
    (h₁ : exec i s₁ = .next t₁) (h₂ : exec i s₂ = .next t₂) : AgreeOn (registersWritten i) t₁ t₂ := by
  cases i with
  | hlt =>
    cases h₁
    cases h₂
    exact h.halt
  | ret =>
    cases h₁
    cases h₂
    have hsp : s₁.sp = s₂.sp := h.sp (List.mem_singleton_self 7)
    exact (h.setPc (by rw [hsp, h.load])).incSp (List.mem_singleton_self 7)
  | push a =>
    refine h.withRegister h₁ h₂ (fun _ => List.cons_subset_cons 7 (List.nil_subset _)) fun r hr e₁ e₂ => ?_
    cases e₁
    cases e₂
    have hread : r ∈ registersRead (.push a) := by simp [registersRead, hr]
    have hpush := h.pushBy (List.mem_cons_self ..) (f := fun u => u.reg r) fun hu => hu.regs r hread
    exact (hpush.advancePast _).mono (List.cons_subset_cons 7 (List.nil_subset _))
  | pop a =>
    refine h.withRegister h₁ h₂ (fun hr => ?_) fun r hr e₁ e₂ => ?_
    · simp [registersWritten, registersRead, hr]
    · cases e₁
      cases e₂
      have hsp : s₁.sp = s₂.sp := h.sp (List.mem_singleton_self 7)
      have hset := h.setReg r (v := s₁.load s₁.sp) (w := s₂.load s₂.sp) (by rw [hsp, h.load])
      rw [registersWritten, hr]
      exact (hset.incSp (by simp [registersRead])).advancePast _
  | prn a =>
    refine h.withRegister h₁ h₂ (fun _ => List.nil_subset _) fun r hr e₁ e₂ => ?_
    cases e₁
    cases e₂
    have hread : s₁.reg r = s₂.reg r := h.regs r (by simp [registersRead, hr])
    exact ((h.emit hread).advancePast _).mono (List.nil_subset _)
  | call a =>
    refine h.withRegister h₁ h₂ (fun _ => List.cons_subset_cons 7 (List.nil_subset _)) fun r hr e₁ e₂ => ?_
    cases e₁
    cases e₂
    have hpush := h.pushBy (List.mem_cons_self ..) (f := State.returnAddress) fun hu => congrArg (· + 2) hu.pc
    have htarget := hpush.regs r (by simp [registersRead, hr])
    exact (hpush.setPc htarget).mono (List.cons_subset_cons 7 (List.nil_subset _))
  | jmp a =>
    refine h.withRegister h₁ h₂ (fun _ => List.nil_subset _) fun r hr e₁ e₂ => ?_
    cases e₁
    cases e₂
    have hread : s₁.reg r = s₂.reg r := h.regs r (by simp [registersRead, hr])
    exact (h.setPc hread).mono (List.nil_subset _)
  | ldi a imm =>
    refine h.withRegister h₁ h₂ (fun hr => ?_) fun r hr e₁ e₂ => ?_
    · simp [registersWritten, hr]
    · cases e₁
      cases e₂
      rw [registersWritten, hr]
      exact (h.setReg r rfl).advancePast _
  | add => exact agreeOn_execAlu (op := .add) h h₁ h₂
  | sub => exact agreeOn_execAlu (op := .sub) h h₁ h₂
  | mul => exact agreeOn_execAlu (op := .mul) h h₁ h₂
  | div => exact agreeOn_execAlu (op := .div) h h₁ h₂

theorem execAlu_registers {op : AluOp} {opcode a b : Byte} {s t : State} (h : execAlu op opcode a b s = .next t) :
    SameRegistersBut (regIndex? a).toList s t := by
  intro k hk
  rcases execAlu_cases h with ⟨-, rfl⟩ | ⟨-, -, rfl⟩ | ⟨_, _, -, -, -, rfl⟩ | ⟨i, _, r, ha, -, -, rfl⟩
  · exact raise_reg ..
  · exact raise_reg ..
  · exact raise_reg ..
  · have hne : k ≠ i := by simpa [regIndex?_of_index ha] using hk
    rw [advancePast_reg, reg_setReg_ne s r hne]

/-- An instruction changes the registers of the "writes" column only. -/
theorem exec_registers {i : Instr} {s t : State} (h : exec i s = .next t) :
    SameRegistersBut (registersWritten i) s t := by
  cases i with
  | hlt =>
    cases h
    exact fun k _ => halt_reg s k
  | ret =>
    cases h
    intro k hk
    rw [incSp_reg_ne _ (List.ne_of_not_mem_cons hk), setPc_reg]
  | push | call =>
    intro k hk
    rcases withRegister_cases h with ⟨r, -, hnext⟩ | ⟨-, rfl⟩
    · cases hnext
      exact decSp_reg_ne s (List.ne_of_not_mem_cons hk)
    · exact raise_reg ..
  | prn | jmp =>
    intro k _
    rcases withRegister_cases h with ⟨r, -, hnext⟩ | ⟨-, rfl⟩
    · cases hnext
      rfl
    · exact raise_reg ..
  | pop a =>
    intro k hk
    rcases withRegister_cases h with ⟨r, hr, hnext⟩ | ⟨-, rfl⟩
    · cases hnext
      obtain ⟨hkr, hk7⟩ : k ≠ r ∧ k ≠ 7 := by simpa [registersWritten, regIndex?_of_index hr] using hk
      rw [advancePast_reg, incSp_reg_ne _ hk7, reg_setReg_ne s _ hkr]
    · exact raise_reg ..
  | ldi a imm =>
    intro k hk
    rcases withRegister_cases h with ⟨r, hr, hnext⟩ | ⟨-, rfl⟩
    · cases hnext
      have hkr : k ≠ r := by simpa [registersWritten, regIndex?_of_index hr] using hk
      rw [advancePast_reg, reg_setReg_ne s _ hkr]
    · exact raise_reg ..
  | add => exact execAlu_registers (op := .add) h
  | sub => exact execAlu_registers (op := .sub) h
  | mul => exact execAlu_registers (op := .mul) h
  | div => exact execAlu_registers (op := .div) h

/-- Settles O34: the "writes" column by `exec_registers`, the "reads" column by `agreeOn_exec`. -/
theorem registersReadAndWrittenAreThoseListed : Obligations.RegistersReadAndWrittenAreThoseListed := by
  intro i s₁ s₂ t₁ t₂ h₁ h₂
  refine ⟨exec_registers h₁, fun hpc hmem hout hstatus hregs => ?_⟩
  have h := agreeOn_exec ⟨hpc, hmem, hout, hstatus, hregs⟩ h₁ h₂
  exact ⟨h.pc, h.mem, h.out, h.status, h.regs⟩

end Sys2Proof.Machine
end

section
/-! PROOFS. PUSH before POP and PUSH into the instruction stream, the transitions of `STATE` (R18) and the exit status (R152),
and the invariant of the machine at reset and along every step. -/

namespace Sys2Proof.Machine

/-! ## PUSH before POP, and PUSH into the instruction stream -/

/-- Settles O16: PUSH by O8 and POP by O9; the increment undoes the decrement, and POP reads the cell that PUSH wrote. -/
theorem pushThenPopRestores : Obligations.PushThenPopRestores := by
  intro a b n m s ha hb hn hm
  obtain ⟨-, -, hpush⟩ := pushStoresBelowTheStackPointer a s
  obtain ⟨t, hpushed, -, htop, hcell, hcells, -, htregs, -⟩ := hpush n ha
  obtain ⟨-, -, hpop⟩ := popLoadsFromTheStackPointer b t
  obtain ⟨u, hpopped, hother, -, -, huregs, -, humem, -⟩ := hpop m hb
  obtain ⟨hreg, husp⟩ := hother hm
  have hsp : u.sp = s.sp := by
    apply BitVec.eq_of_toNat_eq
    rw [husp, htop, ← incSp_sp_toNat, incSp_sp, decSp_sp, BitVec.sub_add_cancel]
  refine ⟨t, u, hpushed, hpopped, ?_, hsp, fun k hk => ?_, fun x hx => ?_⟩
  · rw [hreg, htop, hcell, if_neg hn]
  · by_cases hk7 : k = 7
    · rw [hk7]
      exact hsp
    · have hkm : k ≠ m := List.ne_of_not_mem_cons hk
      rw [huregs k (by simp [hkm, hk7]), htregs k (by simp [hk7])]
  · rw [humem x, hcells x hx]

/-- Settles O18: the PUSH by O8; its cell is the next opcode's address, or its own, by the premise. -/
theorem storedByteIsFetchedNext : Obligations.StoredByteIsFetchedNext := by
  intro a i s ha hrun hd
  obtain ⟨-, -, hpush⟩ := pushStoresBelowTheStackPointer a s
  obtain ⟨t, hexec, -, htop, hcell, -, htpc, -⟩ := hpush i ha
  have hpc : t.pc = s.pc + 2 := by
    apply BitVec.eq_of_toNat_eq
    rw [htpc, BitVec.toNat_add]
    rfl
  refine ⟨t, (step_of_decoded hrun hd).trans hexec, hpc, fun hnext => ?_, fun hself => ⟨?_, htop⟩⟩
  · rw [State.fetch, hpc, ← hnext, hcell]
  · rw [← hself, hcell]

/-! ## The transitions of `STATE` and the exit status (R18, R152) -/

/-- A fault that is called for has a cause. -/
theorem cause_ne_none_of_raisesFault {s : State} {c : FaultCause} {x : Byte} (h : RaisesFault s c x) :
    c ≠ .none := by
  cases h <;> decide

theorem step_of_fetched_hlt {s : State} (hrun : s.runState = .running) (hir : s.fetch.ir = 0x01) :
    step s = .next s.halt :=
  step_of_decoded hrun (fetch_decode_of_ir hir)

/-- Settles O44: Halted by `fetch_ir_of_step_halts` and `step_of_fetched_hlt`, Faulted by `raisesFault_of_faulted`. -/
theorem stateTransitionsAreThoseListed : Obligations.StateTransitionsAreThoseListed := by
  refine ⟨afterReset_runState, fun s t hrun hstep => ⟨⟨fetch_ir_of_step_halts hrun hstep, fun hir => ?_⟩, ?_, ?_⟩,
    fun s t hrest hstep => ?_, rfl, rfl, rfl⟩
  · cases (step_of_fetched_hlt hrun hir).symm.trans hstep
    exact halt_runState s
  · intro hfault
    obtain ⟨c, x, hraises, rfl⟩ := raisesFault_of_faulted hrun hstep hfault
    exact ⟨c, x, cause_ne_none_of_raisesFault hraises, rfl⟩
  · rintro ⟨c, x, -, rfl⟩
    exact raise_runState s c x
  · cases (step_of_not_running hrest).symm.trans hstep
    rfl

/-- Settles O46: `exitStatus` at each of the three values of `STATE`. -/
theorem exitStatusFollowsTheEndState : Obligations.ExitStatusFollowsTheEndState := by
  refine fun e s => ⟨fun h => ?_, fun h => ⟨e.value, ?_, e.nonzero, e.not_two, rfl⟩, fun h => ?_, rfl⟩
  all_goals rw [exitStatus, h]

/-! ## The invariant of the machine -/

theorem inv_afterReset {m : Memory} (hm : Memory.wf m = true) : Inv (State.afterReset m) where
  mem_wf := hm
  fault_registers_clear _ := ⟨rfl, rfl⟩
  fault_explained h := nomatch h
  halted_at_hlt h := nomatch h

/-- Settles O54, by `inv_afterReset`. -/
theorem resetSatisfiesInvariant : Obligations.ResetSatisfiesInvariant :=
  ⟨inv_afterReset wf_nil, fun image => inv_afterReset (wf_ofImage image)⟩

/-- Every step keeps the canonical form: its one access on the port does. -/
theorem step_mem_wf {s t : State} (hm : Memory.wf s.mem = true) (h : step s = .next t) : Memory.wf t.mem = true := by
  by_cases hrun : s.runState = .running
  · rcases step_cases_of_running hrun h with ⟨i, -, -, hexec⟩ | ⟨r, -, rfl⟩
    · rw [exec_mem hexec]
      exact wf_afterAccess _ _ hm
    · obtain ⟨c, x, hraise⟩ := raiseReject_eq_raise s r
      rwa [hraise, raise_mem]
  · cases (step_of_not_running hrun).symm.trans h
    exact hm

theorem execAlu_fault_registers {op : AluOp} {opcode a b : Byte} {s t : State}
    (h : execAlu op opcode a b s = .next t) :
    t.runState = .faulted ∨ (t.faultCause = s.faultCause ∧ t.faultInfo = s.faultInfo) := by
  rcases execAlu_cases h with ⟨-, rfl⟩ | ⟨-, -, rfl⟩ | ⟨_, _, -, -, -, rfl⟩ | ⟨_, _, _, -, -, -, rfl⟩
  · exact .inl rfl
  · exact .inl rfl
  · exact .inl rfl
  · exact .inr ⟨rfl, rfl⟩

/-- An instruction that does not fault keeps the fault registers (R19). -/
theorem exec_fault_registers {i : Instr} {s t : State} (h : exec i s = .next t) :
    t.runState = .faulted ∨ (t.faultCause = s.faultCause ∧ t.faultInfo = s.faultInfo) := by
  cases i with
  | hlt | ret =>
    cases h
    exact .inr ⟨rfl, rfl⟩
  | push | pop | prn | call | jmp | ldi =>
    rcases withRegister_cases h with ⟨r, -, hnext⟩ | ⟨-, rfl⟩
    · cases hnext
      exact .inr ⟨rfl, rfl⟩
    · exact .inl rfl
  | add => exact execAlu_fault_registers (op := .add) h
  | sub => exact execAlu_fault_registers (op := .sub) h
  | mul => exact execAlu_fault_registers (op := .mul) h
  | div => exact execAlu_fault_registers (op := .div) h

theorem step_fault_registers {s t : State} (hrun : s.runState = .running) (h : step s = .next t)
    (ht : t.runState ≠ .faulted) : t.faultCause = s.faultCause ∧ t.faultInfo = s.faultInfo := by
  rcases step_completes_or_faults hrun h with ⟨i, -, hexec⟩ | hfault
  · exact (exec_fault_registers hexec).resolve_left ht
  · exact absurd hfault ht

@[simp] theorem raise_fetch (s : State) (c : FaultCause) (x : Byte) : (s.raise c x).fetch = s.fetch := rfl
@[simp] theorem halt_fetch (s : State) : s.halt.fetch = s.fetch := rfl

/-- A fault that is called for is explained by the state it leaves: fault entry moves neither `PC`, memory nor registers. -/
theorem faultExplained_of_raisesFault {s : State} {c : FaultCause} {x : Byte} (h : RaisesFault s c x) :
    FaultExplained (s.raise c x) := by
  simp only [FaultExplained, raise_faultCause, raise_faultInfo, raise_fetch, raise_reg]
  cases h with
  | unsupportedAluOperation h5 hir => exact ⟨rfl, h5, hir⟩
  | unknownOpcode h5 hir => exact ⟨rfl, h5, hir⟩
  | operandA hir ha => exact ⟨ha, .inl ⟨hir, rfl⟩⟩
  | operandB hir ha hb => exact ⟨hb, .inr ⟨hir, ha, rfl⟩⟩
  | divisor hir ha hb hzero => exact ⟨rfl, hir, ha, _, hb, hzero⟩

/-- Settles O55: memory by `step_mem_wf`, the fault registers by `step_fault_registers`, the fault by
`faultExplained_of_raisesFault`; a step that halts is that of a HLT, which leaves the bytes at `PC`. -/
theorem stepKeepsInvariant : Obligations.StepKeepsInvariant := by
  intro s t hinv hstep
  by_cases hrun : s.runState = .running
  · refine ⟨step_mem_wf hinv.mem_wf hstep, fun ht => ?_, fun ht => ?_, fun ht => ?_⟩
    · obtain ⟨hcause, hinfo⟩ := step_fault_registers hrun hstep ht
      rw [hcause, hinfo]
      exact hinv.fault_registers_clear (by rw [hrun]; decide)
    · obtain ⟨c, x, hraises, rfl⟩ := raisesFault_of_faulted hrun hstep ht
      exact faultExplained_of_raisesFault hraises
    · have hir := fetch_ir_of_step_halts hrun hstep ht
      cases (step_of_fetched_hlt hrun hir).symm.trans hstep
      rw [halt_fetch, hir]
      rfl
  · cases (step_of_not_running hrun).symm.trans hstep
    exact hinv

end Sys2Proof.Machine
end

section
/-! PROOFS. The control FSM (R81, D15): reset and the Loader (R39, R160), DECODE and EXECUTE as the step, the refinement of the
step from FETCH0, and the FSM's own invariant. -/

namespace Sys2Proof.Machine

/-! ## Reset and the Loader, as transitions of the control FSM (R39, R160) -/

/-- Settles O51: the transition that asserts reset by `advance_of_reset`, the Loader's write by `advance_of_load_write`. -/
theorem resetAbandonsTheAccessInProgress : Obligations.ResetAbandonsTheAccessInProgress := by
  intro m held
  have hheld : held = { m with phase := .load, arch := m.arch.assertReset } := advance_of_reset rfl rfl
  have hphase : held.phase = .load := by rw [hheld]
  have hmem : SameMemory m.arch held.arch := fun a => by
    rw [hheld]
    exact afterReset_load m.arch.mem a
  have hagain : held.arch.assertReset = held.arch := by rw [hheld, assertReset_assertReset]
  refine ⟨hmem, access_of_idle (by simp [hphase]), outPort_of_ne_execute (by simp [hphase]), fun x a => ?_⟩
  rw [advance_of_load_write rfl rfl hphase, load_store, hagain, hmem a]

/-- Settles O52: while reset is not asserted a transition does not look at the Loader, and out of LOAD reset does not. -/
theorem loaderWritesOnlyInLoad : Obligations.LoaderWritesOnlyInLoad := by
  intro m rst w h
  cases rst with
  | false => rfl
  | true =>
    have hphase : m.phase ≠ .load := h.resolve_right (by decide)
    rw [advance_of_reset (inp := ⟨true, none⟩) rfl rfl]
    simp [Fsm.advance, Fsm.holdReset, hphase]

/-! ## DECODE and EXECUTE carry out the step (R81, R142) -/

theorem execAlu_of_bad_operand {a b x : Byte} (h : [a, b].find? (fun y => decide (8 ≤ y.toNat)) = some x)
    (op : AluOp) (opcode : Byte) (s : State) : execAlu op opcode a b s = .next (s.raise .invalidRegister x) := by
  by_cases ha : 8 ≤ a.toNat
  · obtain rfl : a = x := by simpa [ha] using h
    exact withRegister_of_bad ha s _
  · rw [List.find?_cons_of_neg (by simpa using ha), List.find?_singleton] at h
    obtain ⟨hb, rfl⟩ : 8 ≤ b.toNat ∧ b = x := by simpa using h
    exact (withRegister_of_index (i := ⟨a.toNat, not_le.1 ha⟩) rfl s _).trans (withRegister_of_bad hb s _)

/-- The operand that DECODE finds bad is the one the instruction would fault on. -/
theorem exec_of_firstBadOperand {i : Instr} {x : Byte} (h : i.firstBadOperand = some x) (s : State) :
    exec i s = .next (s.raise .invalidRegister x) := by
  cases i with
  | hlt | ret => cases h
  | push a | pop a | prn a | call a | jmp a | ldi a =>
    obtain ⟨ha, rfl⟩ : 8 ≤ a.toNat ∧ a = x := by
      simpa [Instr.firstBadOperand, Instr.registerOperands, List.find?_singleton] using h
    exact withRegister_of_bad ha s _
  | add => exact execAlu_of_bad_operand h .add opAdd s
  | sub => exact execAlu_of_bad_operand h .sub opSub s
  | mul => exact execAlu_of_bad_operand h .mul opMul s
  | div => exact execAlu_of_bad_operand h .div opDiv s

section Transitions

variable {m : Fsm} {inp : FsmInputs} {t : State}

theorem advance_of_decode (hrst : inp.rst = false) (h : m.phase = .decode) : m.advance inp = m.decodePhase := by
  simp [Fsm.advance, hrst, h]

/-- With the bytes at `PC` latched, DECODE ends the step in Faulted or goes to EXECUTE with a checked instruction. -/
theorem decodePhase_cases (hdec : m.decoded = m.arch.fetch.decode) (hrun : m.arch.runState = .running)
    (hstep : step m.arch = .next t) :
    (m.decodePhase = { m with arch := t, phase := .faulted } ∧ t.runState = .faulted) ∨
    (m.decodePhase = { m with phase := .execute } ∧ ∃ i, m.decoded = .ok i ∧ i.wellFormed = true) := by
  cases hd : m.decoded with
  | error r =>
    cases (step_of_rejected hrun (hdec ▸ hd)).symm.trans hstep
    refine .inl ⟨by rw [Fsm.decodePhase, hd], ?_⟩
    obtain ⟨c, x, hraise⟩ := raiseReject_eq_raise m.arch r
    rw [hraise, raise_runState]
  | ok i =>
    cases hbad : i.firstBadOperand with
    | some x =>
      have hexec := (step_of_decoded hrun (hdec ▸ hd)).symm.trans hstep
      cases (exec_of_firstBadOperand hbad m.arch).symm.trans hexec
      exact .inl ⟨by simp only [Fsm.decodePhase, hd, hbad], raise_runState ..⟩
    | none =>
      exact .inr ⟨by simp only [Fsm.decodePhase, hd, hbad], i, rfl, (firstBadOperand_eq_none_iff i).1 hbad⟩

/-- With the bytes at `PC` latched and decoded, EXECUTE answers the step. -/
theorem advance_of_execute {i : Instr} (hrst : inp.rst = false) (h : m.phase = .execute)
    (hdec : m.decoded = m.arch.fetch.decode) (hd : m.decoded = .ok i) (hrun : m.arch.runState = .running)
    (hstep : step m.arch = .next t) :
    m.advance inp = { m with arch := t, phase := Phase.ofRunState t.runState } := by
  have hexec : exec i m.arch = .next t := (step_of_decoded hrun (hdec ▸ hd)).symm.trans hstep
  simp [Fsm.advance, hrst, h, Fsm.executePhase, hd, hexec]

end Transitions

/-! ## The control FSM realises the step (R81, D15) -/

theorem run_succ_eq_advance (n : Nat) (m : Fsm) : Fsm.run (n + 1) m = (Fsm.run n m).advance FsmInputs.idle := by
  induction n generalizing m with
  | zero => rfl
  | succ n ih => exact ih (m.advance FsmInputs.idle)

/-- Up to DECODE a step changes nothing that an observer sees. -/
theorem run_of_fetch0_up_to_decode {m : Fsm} (h : m.phase = .fetch0) {k : Nat} (hk : k ≤ 3) :
    (Fsm.run k m).arch = m.arch ∧ (Fsm.run k m).phase.runState = .running := by
  match k with
  | 0 => exact ⟨rfl, by rw [Fsm.run, h, Phase.runState]⟩
  | 1 =>
    rw [Fsm.run, advance_of_fetch0 rfl h]
    exact ⟨rfl, rfl⟩
  | 2 =>
    rw [Fsm.run, advance_of_fetch0 rfl h, Fsm.run, advance_of_fetch1 rfl rfl]
    exact ⟨rfl, rfl⟩
  | 3 =>
    rw [run_three_of_fetch0 h]
    exact ⟨rfl, rfl⟩

/-- Settles O57: four transitions if DECODE takes the fault, five if EXECUTE completes or faults. -/
theorem fsmRealisesTheStep : Obligations.FsmRealisesTheStep := by
  intro m t hphase hrun hstep
  have hthree := run_three_of_fetch0 hphase
  have hfour : Fsm.run 4 m = (Fsm.run 3 m).decodePhase := by
    rw [run_succ_eq_advance, advance_of_decode rfl (by rw [hthree])]
  have hdec : (Fsm.run 3 m).decoded = (Fsm.run 3 m).arch.fetch.decode := by
    rw [hthree]
    rfl
  have harch : (Fsm.run 3 m).arch = m.arch := by rw [hthree]
  rw [← harch] at hrun hstep
  rcases decodePhase_cases hdec hrun hstep with ⟨hfault, ht⟩ | ⟨hexec, i, hd, -⟩
  · refine ⟨3, fun k hk => run_of_fetch0_up_to_decode hphase hk, ?_, ?_⟩
    · rw [hfour, hfault]
    · rw [hfour, hfault, ht, Phase.ofRunState]
  · rw [← hfour] at hexec
    have hfive : Fsm.run 5 m = { Fsm.run 4 m with arch := t, phase := Phase.ofRunState t.runState } := by
      rw [run_succ_eq_advance]
      refine advance_of_execute (i := i) rfl ?_ ?_ ?_ ?_ ?_ <;> rw [hexec]
      exacts [hdec, hd, hrun, hstep]
    refine ⟨4, fun k hk => ?_, by rw [hfive], by rw [hfive]⟩
    rcases Nat.le_succ_iff.1 hk with hk | rfl
    · exact run_of_fetch0_up_to_decode hphase hk
    · rw [hexec]
      exact ⟨harch, rfl⟩

/-! ## The invariant of the control FSM (R81) -/

section Invariant

variable {m : Fsm} {inp : FsmInputs}

/-- In LOAD only the reset values are asked for. -/
theorem fsmInv_of_load (hphase : m.phase = .load) (hheld : m.arch = State.afterReset m.arch.mem)
    (hmem : Memory.wf m.arch.mem = true) : FsmInv m where
  arch_inv := hheld ▸ inv_afterReset hmem
  coarsening := by rw [hheld, hphase, afterReset_runState, Phase.runState]
  held_in_load _ := hheld
  ir_latched h := by simp [hphase] at h
  opa_latched h := by simp [hphase] at h
  opb_latched h := by simp [hphase] at h
  checked h := by simp [hphase] at h

@[simp] theorem runState_ofRunState (r : RunState) : (Phase.ofRunState r).runState = r := by cases r <;> rfl

theorem ofRunState_notMem (r : RunState) :
    Phase.ofRunState r ∉ [Phase.load, .fetch1, .fetch2, .decode, .execute] := by cases r <;> decide

/-- Between instructions, and at the end of a run, the latches are free. -/
theorem fsmInv_of_rest (hinv : Inv m.arch) (hphase : m.phase = Phase.ofRunState m.arch.runState) : FsmInv m := by
  have hfree : m.phase ∉ [Phase.load, .fetch1, .fetch2, .decode, .execute] := hphase ▸ ofRunState_notMem _
  simp only [List.mem_cons, List.not_mem_nil, or_false, not_or] at hfree
  obtain ⟨hload, hfetch1, hfetch2, hdecode, hexecute⟩ := hfree
  exact {
    arch_inv := hinv
    coarsening := by rw [hphase, runState_ofRunState]
    held_in_load := fun h => absurd h hload
    ir_latched := fun h => by simp [hfetch1, hfetch2, hdecode, hexecute] at h
    opa_latched := fun h => by simp [hfetch2, hdecode, hexecute] at h
    opb_latched := fun h => by simp [hdecode, hexecute] at h
    checked := fun h => absurd h hexecute }

/-- Reset asserted leads to LOAD with the registers held, whatever the Loader writes (R39, R160). -/
theorem fsmInv_holdReset (w : Option LoaderWrite) (h : FsmInv m) : FsmInv (m.holdReset w) := by
  have hmem := h.arch_inv.mem_wf
  unfold Fsm.holdReset
  split
  · exact fsmInv_of_load rfl rfl (wf_write _ _ _ hmem)
  · exact fsmInv_of_load rfl rfl hmem

theorem decoded_of_latched (h : FsmInv m) (hphase : m.phase ∈ [Phase.decode, .execute]) :
    m.decoded = m.arch.fetch.decode := by
  have hopa : m.phase ∈ [Phase.fetch2, .decode, .execute] := List.mem_cons_of_mem _ hphase
  have hir : m.phase ∈ [Phase.fetch1, .fetch2, .decode, .execute] := List.mem_cons_of_mem _ hopa
  rw [Fsm.decoded, h.ir_latched hir, h.opa_latched hopa, h.opb_latched hphase, Fetched.decode]

/-- The three fetch phases latch the byte they read. -/
theorem fsmInv_of_fetch (hrst : inp.rst = false) (h : FsmInv m)
    (hphase : m.phase = .fetch0 ∨ m.phase = .fetch1 ∨ m.phase = .fetch2) : FsmInv (m.advance inp) := by
  have hrun : m.arch.runState = .running := by
    rcases hphase with hp | hp | hp <;> rw [h.coarsening, hp, Phase.runState]
  rcases hphase with hp | hp | hp
  · rw [advance_of_fetch0 hrst hp]
    exact ⟨h.arch_inv, hrun, nofun, fun _ => rfl, by simp, by simp, nofun⟩
  · rw [advance_of_fetch1 hrst hp]
    exact ⟨h.arch_inv, hrun, nofun, fun _ => h.ir_latched (by simp [hp]), fun _ => rfl, by simp, nofun⟩
  · rw [advance_of_fetch2 hrst hp]
    exact ⟨h.arch_inv, hrun, nofun, fun _ => h.ir_latched (by simp [hp]), fun _ => h.opa_latched (by simp [hp]),
      fun _ => rfl, nofun⟩

/-- DECODE and EXECUTE carry out the step, which keeps the invariant of the machine. -/
theorem fsmInv_of_decode (hrst : inp.rst = false) (h : FsmInv m) (hphase : m.phase = .decode) :
    FsmInv (m.advance inp) := by
  have hrun : m.arch.runState = .running := by rw [h.coarsening, hphase, Phase.runState]
  obtain ⟨t, hstep⟩ := step_has_next m.arch
  rw [advance_of_decode hrst hphase]
  rcases decodePhase_cases (decoded_of_latched h (by simp [hphase])) hrun hstep with ⟨hfault, ht⟩ | ⟨hexec, hchecked⟩
  · rw [hfault]
    exact fsmInv_of_rest (stepKeepsInvariant _ _ h.arch_inv hstep) (by rw [ht, Phase.ofRunState])
  · rw [hexec]
    exact ⟨h.arch_inv, hrun, nofun, fun _ => h.ir_latched (by simp [hphase]), fun _ => h.opa_latched (by simp [hphase]),
      fun _ => h.opb_latched (by simp [hphase]), fun _ => hchecked⟩

theorem fsmInv_of_execute (hrst : inp.rst = false) (h : FsmInv m) (hphase : m.phase = .execute) :
    FsmInv (m.advance inp) := by
  have hrun : m.arch.runState = .running := by rw [h.coarsening, hphase, Phase.runState]
  obtain ⟨t, hstep⟩ := step_has_next m.arch
  obtain ⟨i, hd, -⟩ := h.checked hphase
  rw [advance_of_execute hrst hphase (decoded_of_latched h (by simp [hphase])) hd hrun hstep]
  exact fsmInv_of_rest (stepKeepsInvariant _ _ h.arch_inv hstep) rfl

end Invariant

/-- Settles O58: a transition with reset asserted by `fsmInv_holdReset`, the others by the lemma of their phase. -/
theorem fsmKeepsInvariant : Obligations.FsmKeepsInvariant := by
  intro inp m h
  cases hrst : inp.rst with
  | true =>
    rw [Fsm.advance, if_pos hrst]
    exact fsmInv_holdReset inp.loader h
  | false =>
    cases hphase : m.phase with
    | load =>
      rw [advance_of_load_release hrst hphase]
      exact fsmInv_of_rest (inv_afterReset h.arch_inv.mem_wf) rfl
    | fetch0 => exact fsmInv_of_fetch hrst h (.inl hphase)
    | fetch1 => exact fsmInv_of_fetch hrst h (.inr (.inl hphase))
    | fetch2 => exact fsmInv_of_fetch hrst h (.inr (.inr hphase))
    | decode => exact fsmInv_of_decode hrst h hphase
    | execute => exact fsmInv_of_execute hrst h hphase
    | halted => rwa [advance_of_end_phase hrst (.inl hphase)]
    | faulted => rwa [advance_of_end_phase hrst (.inr hphase)]

end Sys2Proof.Machine
end
